-- ==== Sys2Proof/Word.lean ====
section
/-! DEFINITION. The word types of the core: bytes of BUF, command words, 64-bit registers and number register indices. -/

namespace Sys2Proof

/-- One byte of the operand buffer (20_memory.md R60). -/
abbrev Byte := BitVec 8

/-- A 32-bit command word, and the width of `STATUS`, `FCMD`, `CTRL` and `CMD` (30_encoding.md R90; 20_memory.md R66). -/
abbrev Word32 := BitVec 32

/-- The width of `CCNT`, and wide enough for `SR` at either limb width (10_state.md R37, R41). -/
abbrev Word64 := BitVec 64

/-- The index of a number register, `N0` to `N15`: every index names a register (10_state.md R30; 30_encoding.md R97). -/
abbrev Reg := Fin 16

end Sys2Proof
end

