-- ==== Sys2Proof/Config.lean ====
section
/-! DEFINITION. What an implementation fixes (the parameters of 00_scope.md section 3) and the free values (93 U5, U6, U7). -/

namespace Sys2Proof

/-- The limb widths the spec admits (00_scope.md R11): parameter `LIMB_BITS`. -/
inductive LimbBits where
  | w32
  | w64
  deriving DecidableEq, Repr

/-- The parameters the spec leaves open (00_scope.md R11, R16; 20_memory.md R66). A machine has one value of them for good. -/
structure Config where
  /-- the limb width `W` (R11) -/
  limbBits : LimbBits
  /-- `HEX_LOWER_ACCEPT`: whether LDH reads `a`-`f` as digits (R16) -/
  hexLowerAccept : Bool
  /-- `HOST_BASE`: the bus address of the host window (R66) -/
  hostBase : Nat
  deriving DecidableEq, Repr

namespace Config

/-- The limb width `W` in bits (00_scope.md R11). -/
def width (c : Config) : Nat :=
  match c.limbBits with
  | .w32 => 32
  | .w64 => 64

/-- `MAX_LIMBS = 512 / W` (00_scope.md R12). -/
def maxLimbs (c : Config) : Nat := 512 / c.width

/-- `CAP = 2*MAX_LIMBS + 1`, the capacity of a number register in limbs (00_scope.md R13). -/
def cap (c : Config) : Nat := 2 * c.maxLimbs + 1

/-- The parameters of `State.reset`. DESIGN CHOICE (log entry 1): the spec leaves all three open; every statement about the
machine is over every value of them. Unsafe only for a claim about `State.reset` itself. -/
def standard : Config := { limbBits := .w64, hexLowerAccept := true, hostBase := 0 }

/-- FREE VALUE (log entry 2): the byte that `BUF[addr]` holds after reset number `epoch`, until it is written
(10_state.md R46; 70_reset_and_hazards.md R290; 93 U5). No body: no proof can see it. Safe. -/
opaque freeByte (epoch addr : Nat) : Byte

/-- FREE VALUE (log entry 3): the word at limb index `k` above a number register's length after write number `draw`
(10_state.md R34; 93 U6); its low `W` bits are used. Safe. -/
opaque freeLimb (draw k : Nat) : Word64

/-- FREE VALUE (log entry 6): MODINV's result magnitude when `|m| = 1`, true for 1 and false for 0
(45_modular.md R213; 93 U7). Safe. -/
opaque freeUnit (draw : Nat) : Bool

end Config

end Sys2Proof
end

