-- ==== Sys2Proof/Syntax.lean ====
section
/-! DEFINITION. The 26 commands of spec/opcode_table.json with the operands 30_encoding.md R99 gives each. -/

namespace Sys2Proof

/-- One constructor per row of the opcode table, operands in the order of 30_encoding.md R104 (destination first).
A register operand is legal at every value (R97). An immediate is a number; whether it fits its field is `WellFormed`. -/
inductive Instr where
  /-- ZERO Nd (R120) -/
  | zero (rd : Reg)
  /-- MOV Nd, Na (R121) -/
  | mov (rd ra : Reg)
  /-- LDB Nd, addr, len (R122) -/
  | ldb (rd : Reg) (addr len : Nat)
  /-- STB Na, addr, len (R124) -/
  | stb (ra : Reg) (addr len : Nat)
  /-- LDW Nd, addr (R126) -/
  | ldw (rd : Reg) (addr : Nat)
  /-- LDH Nd, addr, len (R128) -/
  | ldh (rd : Reg) (addr len : Nat)
  /-- STH Na, addr, len (R130) -/
  | sth (ra : Reg) (addr len : Nat)
  /-- CMPM Na, Nb (R150) -/
  | cmpm (ra rb : Reg)
  /-- EQ Na, Nb (R152) -/
  | eq (ra rb : Reg)
  /-- ISZ Na (R153) -/
  | isz (ra : Reg)
  /-- ISODD Na (R154) -/
  | isodd (ra : Reg)
  /-- ISNEG Na (R155) -/
  | isneg (ra : Reg)
  /-- ADD Nd, Na, Nb (R172) -/
  | add (rd ra rb : Reg)
  /-- SUB Nd, Na, Nb (R173) -/
  | sub (rd ra rb : Reg)
  /-- MUL Nd, Na, Nb (R190) -/
  | mul (rd ra rb : Reg)
  /-- DIV Nd, Na, Nb (R192) -/
  | div (rd ra rb : Reg)
  /-- MODMUL Nd, Na, Nb, Nc (R194) -/
  | modmul (rd ra rb rc : Reg)
  /-- MODRED Nd, Nc (R210) -/
  | modred (rd rc : Reg)
  /-- MODINV Nd, Na, Nc (R213) -/
  | modinv (rd ra rc : Reg)
  /-- BLEN Na (R230) -/
  | blen (ra : Reg)
  /-- GETBIT Na, pos (R231) -/
  | getbit (ra : Reg) (pos : Nat)
  /-- GETBITS Na, off, cnt (R232) -/
  | getbits (ra : Reg) (off cnt : Nat)
  /-- SHR Nd, sh (R233) -/
  | shr (rd : Reg) (sh : Nat)
  /-- INC Nd (R235) -/
  | inc (rd : Reg)
  /-- NEG Nd (R236) -/
  | neg (rd : Reg)
  /-- SPLIT Nd, Nb, Na, pos: low part, high part, source, position (R237) -/
  | split (rd rb ra : Reg) (pos : Nat)
  deriving DecidableEq, Repr

end Sys2Proof
end

