-- ==== Sys2Proof/WellFormed.lean ====
section
/-! DEFINITION. When an instruction has an encoding: each immediate fits its field (30_encoding.md R96, R104). -/

namespace Sys2Proof

/-- Every immediate fits its field: `addr` and `len` 8 bits, `imm14` 14, `cnt` 7, `off` 11 (30_encoding.md R96); "An assembler
rejects an immediate that does not fit its field" (R104). Register fields always fit (R97). A value outside an operation's
contract (a `len` of 0, a shift of `W`) is well formed: it decodes and faults when it runs (R102). -/
def Instr.WellFormed : Instr → Bool
  | .zero _ => true
  | .mov _ _ => true
  | .ldb _ addr len => decide (addr < 256 ∧ len < 256)
  | .stb _ addr len => decide (addr < 256 ∧ len < 256)
  | .ldw _ addr => decide (addr < 256)
  | .ldh _ addr len => decide (addr < 256 ∧ len < 256)
  | .sth _ addr len => decide (addr < 256 ∧ len < 256)
  | .cmpm _ _ => true
  | .eq _ _ => true
  | .isz _ => true
  | .isodd _ => true
  | .isneg _ => true
  | .add _ _ _ => true
  | .sub _ _ _ => true
  | .mul _ _ _ => true
  | .div _ _ _ => true
  | .modmul _ _ _ _ => true
  | .modred _ _ => true
  | .modinv _ _ _ => true
  | .blen _ => true
  | .getbit _ pos => decide (pos < 16384)
  | .getbits _ off cnt => decide (off < 2048 ∧ cnt < 128)
  | .shr _ sh => decide (sh < 16384)
  | .inc _ => true
  | .neg _ => true
  | .split _ _ _ pos => decide (pos < 16384)

end Sys2Proof
end

