-- ==== Sys2Proof/Decode.lean ====
section
/-! DEFINITION. The decoder of 30_encoding.md, total on every 32-bit word, and the encoder written from the same formats. -/

namespace Sys2Proof

/-- Why a word is illegal (30_encoding.md R100, R101). Either way it raises ILLEGAL_COMMAND. -/
inductive DecodeError where
  /-- the opcode is assigned to no command -/
  | reservedOpcode
  /-- the opcode is assigned and a field the command does not use is not zero -/
  | unusedFieldNonzero
  deriving DecidableEq, Repr

/-- `w[hi:lo]`, the unsigned integer of bits `hi` down to `lo` (00_scope.md R17). -/
def bits (w : Word32) (hi lo : Nat) : Nat := w.toNat / 2 ^ lo % 2 ^ (hi + 1 - lo)

/-- The number register named by the 4-bit field whose lowest bit is `lo` (30_encoding.md R97). -/
def regField (w : Word32) (lo : Nat) : Reg := ⟨w.toNat / 2 ^ lo % 16, Nat.mod_lt _ (by decide)⟩

/-- Accept `i` when every unused bit is zero (30_encoding.md R98): `unused` is the sum of the unused fields. -/
def accept (unused : Nat) (i : Instr) : Except DecodeError Instr :=
  if unused = 0 then .ok i else .error .unusedFieldNonzero

/-- The command of opcode `op` with the fields of `w`, in the formats R, M, B and G (30_encoding.md R92-R95, R99). -/
def decodeFields (op : Nat) (w : Word32) : Except DecodeError Instr :=
  let rd := regField w 22
  let ra := regField w 18
  let rb := regField w 14
  let rc := regField w 10
  let addr := bits w 17 10
  let len := bits w 9 2
  let imm14 := bits w 13 0
  match op with
  | 0x01 => accept (bits w 21 0) (.zero rd)
  | 0x02 => accept (bits w 17 0) (.mov rd ra)
  | 0x03 => accept (bits w 21 18 + bits w 1 0) (.ldb rd addr len)
  | 0x04 => accept (bits w 25 22 + bits w 1 0) (.stb ra addr len)
  | 0x05 => accept (bits w 21 18 + bits w 9 0) (.ldw rd addr)
  | 0x06 => accept (bits w 21 18 + bits w 1 0) (.ldh rd addr len)
  | 0x07 => accept (bits w 25 22 + bits w 1 0) (.sth ra addr len)
  | 0x08 => accept (bits w 25 22 + bits w 13 0) (.cmpm ra rb)
  | 0x09 => accept (bits w 25 22 + bits w 13 0) (.eq ra rb)
  | 0x0A => accept (bits w 25 22 + bits w 17 0) (.isz ra)
  | 0x0B => accept (bits w 25 22 + bits w 17 0) (.isodd ra)
  | 0x0C => accept (bits w 25 22 + bits w 17 0) (.isneg ra)
  | 0x10 => accept (bits w 13 0) (.add rd ra rb)
  | 0x11 => accept (bits w 13 0) (.sub rd ra rb)
  | 0x18 => accept (bits w 13 0) (.mul rd ra rb)
  | 0x19 => accept (bits w 13 0) (.div rd ra rb)
  | 0x1A => accept (bits w 9 0) (.modmul rd ra rb rc)
  | 0x20 => accept (bits w 21 14 + bits w 9 0) (.modred rd rc)
  | 0x21 => accept (bits w 17 14 + bits w 9 0) (.modinv rd ra rc)
  | 0x28 => accept (bits w 25 22 + bits w 17 0) (.blen ra)
  | 0x29 => accept (bits w 25 22 + bits w 17 14) (.getbit ra imm14)
  | 0x2A => accept (bits w 25 22) (.getbits ra (bits w 10 0) (bits w 17 11))
  | 0x2B => accept (bits w 21 14) (.shr rd imm14)
  | 0x2C => accept (bits w 21 0) (.inc rd)
  | 0x2D => accept (bits w 21 0) (.neg rd)
  | 0x2E => accept 0 (.split rd rb ra imm14)
  | _ => .error .reservedOpcode

/-- Every 32-bit word is exactly one command or illegal (30_encoding.md R91, R100). -/
def decode (w : Word32) : Except DecodeError Instr := decodeFields (bits w 31 26) w

/-- Format R (30_encoding.md R92). -/
def encodeR (op : Nat) (rd ra rb rc : Nat) : Word32 :=
  BitVec.ofNat 32 (op * 2 ^ 26 + rd * 2 ^ 22 + ra * 2 ^ 18 + rb * 2 ^ 14 + rc * 2 ^ 10)

/-- Format M (30_encoding.md R93). -/
def encodeM (op : Nat) (rd ra addr len : Nat) : Word32 :=
  BitVec.ofNat 32 (op * 2 ^ 26 + rd * 2 ^ 22 + ra * 2 ^ 18 + addr * 2 ^ 10 + len * 2 ^ 2)

/-- Format B (30_encoding.md R94). -/
def encodeB (op : Nat) (rd ra rb imm14 : Nat) : Word32 :=
  BitVec.ofNat 32 (op * 2 ^ 26 + rd * 2 ^ 22 + ra * 2 ^ 18 + rb * 2 ^ 14 + imm14)

/-- Format G (30_encoding.md R95). -/
def encodeG (op : Nat) (ra cnt off : Nat) : Word32 :=
  BitVec.ofNat 32 (op * 2 ^ 26 + ra * 2 ^ 18 + cnt * 2 ^ 11 + off)

/-- The command word of a well-formed instruction, unused fields zero (30_encoding.md R98, R99). -/
def encode : Instr → Word32
  | .zero rd => encodeR 0x01 rd 0 0 0
  | .mov rd ra => encodeR 0x02 rd ra 0 0
  | .ldb rd addr len => encodeM 0x03 rd 0 addr len
  | .stb ra addr len => encodeM 0x04 0 ra addr len
  | .ldw rd addr => encodeM 0x05 rd 0 addr 0
  | .ldh rd addr len => encodeM 0x06 rd 0 addr len
  | .sth ra addr len => encodeM 0x07 0 ra addr len
  | .cmpm ra rb => encodeR 0x08 0 ra rb 0
  | .eq ra rb => encodeR 0x09 0 ra rb 0
  | .isz ra => encodeR 0x0A 0 ra 0 0
  | .isodd ra => encodeR 0x0B 0 ra 0 0
  | .isneg ra => encodeR 0x0C 0 ra 0 0
  | .add rd ra rb => encodeR 0x10 rd ra rb 0
  | .sub rd ra rb => encodeR 0x11 rd ra rb 0
  | .mul rd ra rb => encodeR 0x18 rd ra rb 0
  | .div rd ra rb => encodeR 0x19 rd ra rb 0
  | .modmul rd ra rb rc => encodeR 0x1A rd ra rb rc
  | .modred rd rc => encodeR 0x20 rd 0 0 rc
  | .modinv rd ra rc => encodeR 0x21 rd ra 0 rc
  | .blen ra => encodeR 0x28 0 ra 0 0
  | .getbit ra pos => encodeB 0x29 0 ra 0 pos
  | .getbits ra off cnt => encodeG 0x2A ra cnt off
  | .shr rd sh => encodeB 0x2B rd 0 0 sh
  | .inc rd => encodeR 0x2C rd 0 0 0
  | .neg rd => encodeR 0x2D rd 0 0 0
  | .split rd rb ra pos => encodeB 0x2E rd ra rb pos

/-- The mask and match of an instruction's row of spec/opcode_table.json: the opcode and the fields it does not use
(30_encoding.md R98). Transcribed from the table, apart from the formats above, so that the two can be held against each
other. -/
def rowOf : Instr → Word32 × Word32
  | .zero _ => (0xFC3FFFFF, 0x04000000)
  | .mov _ _ => (0xFC03FFFF, 0x08000000)
  | .ldb _ _ _ => (0xFC3C0003, 0x0C000000)
  | .stb _ _ _ => (0xFFC00003, 0x10000000)
  | .ldw _ _ => (0xFC3C03FF, 0x14000000)
  | .ldh _ _ _ => (0xFC3C0003, 0x18000000)
  | .sth _ _ _ => (0xFFC00003, 0x1C000000)
  | .cmpm _ _ => (0xFFC03FFF, 0x20000000)
  | .eq _ _ => (0xFFC03FFF, 0x24000000)
  | .isz _ => (0xFFC3FFFF, 0x28000000)
  | .isodd _ => (0xFFC3FFFF, 0x2C000000)
  | .isneg _ => (0xFFC3FFFF, 0x30000000)
  | .add _ _ _ => (0xFC003FFF, 0x40000000)
  | .sub _ _ _ => (0xFC003FFF, 0x44000000)
  | .mul _ _ _ => (0xFC003FFF, 0x60000000)
  | .div _ _ _ => (0xFC003FFF, 0x64000000)
  | .modmul _ _ _ _ => (0xFC0003FF, 0x68000000)
  | .modred _ _ => (0xFC3FC3FF, 0x80000000)
  | .modinv _ _ _ => (0xFC03C3FF, 0x84000000)
  | .blen _ => (0xFFC3FFFF, 0xA0000000)
  | .getbit _ _ => (0xFFC3C000, 0xA4000000)
  | .getbits _ _ _ => (0xFFC00000, 0xA8000000)
  | .shr _ _ => (0xFC3FC000, 0xAC000000)
  | .inc _ => (0xFC3FFFFF, 0xB0000000)
  | .neg _ => (0xFC3FFFFF, 0xB4000000)
  | .split _ _ _ _ => (0xFC000000, 0xB8000000)

/-- The instruction the decoder reads from the 32-bit word whose low `nbits` bits are `w`'s and whose other bits are 0
(a command is one word, so there are no bytes to lay out: 30_encoding.md R90; 20_memory.md R75). -/
def decodeTableWord (nbits w : Nat) : Option Instr :=
  match decode (BitVec.ofNat 32 (w % 2 ^ nbits)) with
  | .ok i => some i
  | .error _ => none

end Sys2Proof
end

