-- ==== Sys2Proof/Machine/State.lean ====
section
/-! DEFINITION. The state of the core as plain data (10_state.md R48), the faults and refusals, and the state after reset. -/

namespace Sys2Proof.Machine

/-- The contract violations of 60_exceptions.md R262. A command that commits one ends in a NEXT state with the code recorded
(R264, R267). -/
inductive FaultCode where
  /-- 0x01: the command word matches no row of the opcode table (any word) -/
  | illegalCommand
  /-- 0x02: a BUF field extends past address 255 (LDB, STB, LDW, LDH, STH) -/
  | bufRange
  /-- 0x03: byte length 0 or above 64 (LDB, STB) -/
  | bytesLen
  /-- 0x04: the magnitude does not fit in `len` bytes (STB) -/
  | bytesFit
  /-- 0x05: digit count 0 or above 128 (LDH, STH) -/
  | hexLen
  /-- 0x06: the magnitude does not fit in `len` digits (STH) -/
  | hexFit
  /-- 0x07: the result would need more than CAP limbs (ADD, SUB, MUL, MODMUL, INC) -/
  | capacity
  /-- 0x08: divisor 0 (DIV) -/
  | divZero
  /-- 0x09: modulus not valid (MODRED, MODMUL, MODINV) -/
  | modInvalid
  /-- 0x0A: gcd not 1 (MODINV) -/
  | notInvertible
  /-- 0x0B: shift amount at least W (SHR) -/
  | shiftRange
  /-- 0x0C: bit count above W (GETBITS) -/
  | bitCount
  /-- 0x0D: split position 0 (SPLIT) -/
  | splitPos
  /-- 0x0E: SPLIT's two destinations are one register -/
  | splitAlias
  /-- 0x0F: reserved for the minuend invariant of magnitude subtraction; no command raises it (43_additive.md R171) -/
  | magSub
  deriving DecidableEq, Repr

/-- What the limbs of a number register at indices `len` to `CAP-1` hold (10_state.md R34): `zeroed` after ZERO and reset,
`drawn n` after any other write, the unspecified words of draw `n` (log entry 3). -/
inductive Tail where
  | zeroed
  | drawn (n : Nat)
  deriving DecidableEq, Repr

/-- A number register: its value, which fixes the sign, the limb count and the limbs below it (10_state.md R31, R32: "a model
may represent a number register as an integer"), and what its limbs above the limb count hold. -/
structure NumReg where
  val  : Int
  tail : Tail
  deriving DecidableEq, Repr

/-- An access of the host through its window (20_memory.md R66, R67): bus address and width in bits, and for a write the data
in the low `width` bits. -/
inductive HostAccess where
  | read (addr width : Nat)
  | write (addr width : Nat) (data : Word64)
  deriving DecidableEq, Repr

/-- What a read of the host returned (20_memory.md R66). -/
structure HostReply where
  addr  : Nat
  width : Nat
  data  : Word64
  deriving DecidableEq, Repr

/-- The written bytes of BUF, addresses strictly rising; a byte not listed has not been written since reset. -/
abbrev Memory := List Host.Cell

/-- The state: the tuple of 10_state.md R48, the machine's parameters, and the model's own fields (log entries 1, 2, 3, 5). -/
structure State where
  /-- the parameters of this machine; no step changes them (log entry 1); holds STATUS.WIDTH (10_state.md R42) -/
  cfg      : Config
  /-- `N0` to `N15` (R30) -/
  regs     : Vector NumReg 16
  /-- `SR` (R37), zero-extended to 64 bits -/
  sr       : Word64
  /-- STATUS.FAULT and STATUS.FCODE (R42): none while FAULT is 0 -/
  fault    : Option FaultCode
  /-- STATUS.LOST (R42) -/
  lost     : Bool
  /-- `FCMD` (R43) -/
  fcmd     : Word32
  /-- `CCNT` (R41) -/
  ccnt     : Word64
  /-- `BUF` (R46): the bytes written since reset -/
  buf      : Memory
  /-- the model's own: the number of resets after power-on, which names the draw of an unwritten byte (log entry 2) -/
  bufEpoch : Nat
  /-- the model's own: the number of draws taken (log entry 3) -/
  draws    : Nat
  /-- the model's own: host accesses waiting at the port, oldest first (20_memory.md R71, R72; log entry 5) -/
  inbox    : List HostAccess
  /-- the model's own: what the host's reads returned, oldest first (log entry 5) -/
  replies  : List HostReply
  deriving DecidableEq, Repr

/-- Reasons a step could stop with a fault: none. Every contract violation of 60_exceptions.md R262 has its entry described
(R264, R267, R269) and is a NEXT state with STATUS.FAULT set, so nothing in this machine stops. -/
inductive Fault where
  deriving DecidableEq, Repr

/-- Reasons a step has no meaning. -/
inductive Refusal where
  /-- An instruction the model does not have yet. Raised by a refused arm of `exec`; no arm is one. Safe. -/
  | notModelled (mnemonic : String)
  /-- A host access at an address outside the window's offsets. Raised by the host port; 20_memory.md R67: "the model refuses it
  (no meaning is given)". Safe. -/
  | hostOffset (addr : Nat)
  /-- A host access to a register of the window at another width than its own. Raised by the host port; 20_memory.md R67: "the
  model refuses it (no meaning is given)". Safe. -/
  | hostWidth (addr width : Nat)
  deriving DecidableEq, Repr

/-- What a step answers. -/
abbrev Result := Host.Outcome State Fault Refusal

/-- A number register that holds 0 with every limb 0 (10_state.md R36). -/
def NumReg.cleared : NumReg := { val := 0, tail := .zeroed }

/-- The machine with parameters `c` right after power-on (10_state.md R48; 70_reset_and_hazards.md R290). -/
def State.powerOn (c : Config) : State where
  cfg := c
  regs := Vector.replicate 16 NumReg.cleared
  sr := 0
  fault := none
  lost := false
  fcmd := 0
  ccnt := 0
  buf := []
  bufEpoch := 0
  draws := 0
  inbox := []
  replies := []

/-- The machine right after reset, with the parameters of log entry 1. -/
def State.reset : State := State.powerOn Config.standard

end Sys2Proof.Machine
end

