-- ==== Sys2Proof/Machine/Operands.lean ====
section
/-! DEFINITION. The arithmetic on operand values: the helpers of 00_scope.md section 4, the limb view, and each operation's value
function. All on exact integers; an operation answers its value or the contract violation its rule names. -/

namespace Sys2Proof.Machine

/-- The index of the highest set bit plus one, 0 for 0 (00_scope.md R19; 90_conflicts.md C1). -/
def bitlen (x : Nat) : Nat := if x = 0 then 0 else x.log2 + 1

/-- The limb count of the canonical form of `x`: `max(1, ⌈bitlen(x) / W⌉)` (00_scope.md R19). -/
def limbs (c : Config) (x : Nat) : Nat := max 1 ((bitlen x + (c.width - 1)) / c.width)

/-- Limb `k` of the magnitude `m`: `(m >> (W*k)) mod 2^W` (10_state.md R32). -/
def limbOf (c : Config) (m k : Nat) : Nat := m >>> (c.width * k) % 2 ^ c.width

/-- `neg(v)` (00_scope.md R20). -/
def isNeg (v : Int) : Bool := decide (v < 0)

/-- `mk(s, m)`: the value with sign `s` and magnitude `m`; zero has no sign (00_scope.md R20). -/
def mk (s : Bool) (m : Nat) : Int := if m = 0 then 0 else if s then -(m : Int) else m

/-- `sext_N(u)`: the integer whose `N`-bit two's-complement form is `u` (00_scope.md R18). -/
def sext (n u : Nat) : Int := if u < 2 ^ (n - 1) then u else (u : Int) - 2 ^ n

/-- The truncating quotient (00_scope.md R21). -/
def tquot (a b : Int) : Int := mk (isNeg a ^^ isNeg b) (a.natAbs / b.natAbs)

/-- The truncating remainder, with the sign of `a` (00_scope.md R21). -/
def trem (a b : Int) : Int := mk (isNeg a) (a.natAbs % b.natAbs)

/-- The canonical residue `r - m * ⌊r / m⌋` for `m > 0` (00_scope.md R21). -/
def emod (r m : Int) : Int := r - m * Int.fdiv r m

/-- Compare the limbs below index `n`, the highest first (the loop of 42_compare.md R150). -/
def compareLimbs (c : Config) (a b : Nat) : Nat → Int
  | 0 => 0
  | i + 1 =>
    if limbOf c a i < limbOf c b i then -1
    else if limbOf c b i < limbOf c a i then 1
    else compareLimbs c a b i

/-- `compareMagnitudeOrder`: first by limb count, then limb by limb from the most significant (42_compare.md R150). -/
def compareMagnitude (c : Config) (a b : Nat) : Int :=
  if limbs c a < limbs c b then -1
  else if limbs c b < limbs c a then 1
  else compareLimbs c a b (limbs c a)

/-- Magnitude subtraction, with its invariant minuend ≥ subtrahend checked (43_additive.md R171). -/
def magnitudeSub (a b : Nat) : Except FaultCode Nat := if a < b then .error .magSub else .ok (a - b)

/-- The sign and magnitude that the signed combinator forms, before the capacity check (43_additive.md R170). -/
def combine (c : Config) (a : Int) (sb : Bool) (b : Int) : Except FaultCode (Bool × Nat) :=
  if isNeg a = sb then .ok (isNeg a, a.natAbs + b.natAbs)
  else if compareMagnitude c a.natAbs b.natAbs = 0 then .ok (false, 0)
  else if 0 < compareMagnitude c a.natAbs b.natAbs then (magnitudeSub a.natAbs b.natAbs).map (isNeg a, ·)
  else (magnitudeSub b.natAbs a.natAbs).map (sb, ·)

/-- A signed magnitude as a register value, or CAPACITY when it needs more than CAP limbs (10_state.md R33). -/
def fit (c : Config) (s : Bool) (m : Nat) : Except FaultCode Int :=
  if c.cap < limbs c m then .error .capacity else .ok (mk s m)

/-- The signed combinator of ADD and SUB (43_additive.md R170); `sb` is the effective sign of the second operand. -/
def addsub (c : Config) (a : Int) (sb : Bool) (b : Int) : Except FaultCode Int :=
  match combine c a sb b with
  | .ok (s, m) => fit c s m
  | .error f => .error f

/-- `multiply` (44_multiplicative.md R190): a zero operand comes before the capacity test. -/
def multiply (c : Config) (a b : Int) : Except FaultCode Int :=
  if a = 0 ∨ b = 0 then .ok 0
  else if c.cap < limbs c a.natAbs + limbs c b.natAbs then .error .capacity
  else .ok (mk (isNeg a ^^ isNeg b) (a.natAbs * b.natAbs))

/-- `divide` (44_multiplicative.md R192). -/
def divide (c : Config) (a b : Int) : Except FaultCode Int :=
  if b = 0 then .error .divZero
  else if limbs c a.natAbs < limbs c b.natAbs then .ok 0
  else .ok (tquot a b)

/-- The modulus contract of `modReduce` is violated (45_modular.md R210). -/
def modulusBad (c : Config) (m : Int) : Bool := decide (m ≤ 0 ∨ c.maxLimbs < limbs c m.natAbs)

/-- `modularMultiply` (44_multiplicative.md R194). -/
def modularMultiply (c : Config) (a b m : Int) : Except FaultCode Int :=
  if modulusBad c m then .error .modInvalid
  else
    match multiply c a b with
    | .ok p => .ok (emod p m)
    | .error f => .error f

/-- `modReduce` (45_modular.md R210): the truncating remainder `t`, and `m - |t|` when it is negative (90_conflicts.md C2). -/
def modReduce (c : Config) (r m : Int) : Except FaultCode Int :=
  if modulusBad c m then .error .modInvalid
  else
    let t := trem r m
    .ok (if t < 0 then m - t.natAbs else t)

/-- The extended Euclidean algorithm's coefficient of the first operand (45_modular.md R212): `(r0, r1)` are the successive
remainders and `(s0, s1)` their coefficients; `fuel` bounds the number of divisions. -/
def bezout : (fuel : Nat) → (r0 r1 : Nat) → (s0 s1 : Int) → Int
  | 0, _, _, s0, _ => s0
  | fuel + 1, r0, r1, s0, s1 =>
    if r1 = 0 then s0 else bezout fuel r1 (r0 % r1) s1 (s0 - (r0 / r1 : Nat) * s1)

/-- The coefficient of `a`, normalized into `[0, m)` (45_modular.md R213); the remainders fall from `m`, so `m + 1` divisions
are enough. -/
def inverseOf (a m : Nat) : Nat := (bezout (m + 1) a m 1 0 % (m : Int)).toNat

/-- `modInverse` (45_modular.md R213); `unit` is the draw for `|m| = 1` (log entry 6). -/
def modInverse (c : Config) (a m : Int) (unit : Bool) : Except FaultCode Int :=
  if m = 0 ∨ c.maxLimbs < limbs c m.natAbs then .error .modInvalid
  else if Nat.gcd a.natAbs m.natAbs ≠ 1 then .error .notInvertible
  else .ok (mk (isNeg a ^^ isNeg m) (if m.natAbs = 1 then unit.toNat else inverseOf a.natAbs m.natAbs))

/-- `increment` (46_bits.md R235): on the magnitude. -/
def increment (c : Config) (r : Int) : Except FaultCode Int := fit c (isNeg r) (r.natAbs + 1)

/-- `negate` (46_bits.md R236). -/
def negate (r : Int) : Int := mk (!isNeg r) r.natAbs

/-- `shiftRight`'s new value (46_bits.md R233): the magnitude is shifted, the sign kept. -/
def shiftRight (r : Int) (sh : Nat) : Int := mk (isNeg r) (r.natAbs >>> sh)

/-- The two branches of `split` (46_bits.md R237): the low and the high part. -/
def splitParts (a : Int) (p : Nat) : Int × Int :=
  if bitlen a.natAbs ≤ p then (a, 0)
  else (mk (isNeg a) (a.natAbs % 2 ^ p), mk (isNeg a) (a.natAbs >>> p))

/-- `getBit` (46_bits.md R231): 0 beyond the represented limb range. -/
def getBit (c : Config) (a : Int) (pos : Nat) : Nat :=
  if c.width * limbs c a.natAbs ≤ pos then 0 else (a.natAbs >>> pos) % 2

/-- The number whose digits in base `base` are `ds`, the most significant first (20_memory.md R61, R63). -/
def ofDigits (base : Nat) (ds : List Nat) : Nat := ds.foldl (fun acc d => acc * base + d) 0

/-- The lowest `n` digits of `m`, `k` bits each, the most significant first (41_transfer.md R124, R130). -/
def toDigits (k m n : Nat) : List Nat := (List.range n).map fun j => (m >>> (k * (n - 1 - j))) % 2 ^ k

/-- The digit value of an ASCII byte (41_transfer.md R127): 0 for every byte that is no digit. -/
def hexVal (c : Config) (b : Byte) : Nat :=
  let n := b.toNat
  if 0x30 ≤ n ∧ n ≤ 0x39 then n - 0x30
  else if 0x41 ≤ n ∧ n ≤ 0x46 then n - 0x37
  else if 0x61 ≤ n ∧ n ≤ 0x66 then (if c.hexLowerAccept then n - 0x57 else 0)
  else 0

/-- The ASCII byte of a digit value 0-15 (41_transfer.md R129). -/
def hexChr (d : Nat) : Byte := BitVec.ofNat 8 (if d ≤ 9 then 0x30 + d else 0x41 + (d - 10))

end Sys2Proof.Machine
end

