-- ==== Sys2Proof/Machine/Flags.lean ====
section
/-! DEFINITION. The core has no flags (10_state.md R39); what takes their place is the encodings of results in SR (R38). -/

namespace Sys2Proof.Machine

/-- `twos_N(x)`: the `N`-bit two's-complement word of `x` (00_scope.md R18). -/
def twos (n : Nat) (x : Int) : Nat := (x % 2 ^ n).toNat

/-- A count or bit field in SR: the unsigned `W`-bit word (10_state.md R38). -/
def srWord (c : Config) (x : Nat) : Word64 := BitVec.ofNat 64 (x % 2 ^ c.width)

/-- A Boolean in SR: 1 for true, 0 for false (10_state.md R38). -/
def srBool (c : Config) (b : Bool) : Word64 := srWord c b.toNat

/-- A three-way comparison in SR: all ones, 0 or 1 (10_state.md R38). -/
def srOrder (c : Config) (x : Int) : Word64 := srWord c (twos c.width x)

end Sys2Proof.Machine
end

