-- ==== Sys2Proof/Machine/Ops.lean ====
section
/-! DEFINITION. The named operations over registers and memory, completing a command, taking a contract-violation fault, and
reset, the only way out of it. -/

namespace Sys2Proof.Machine

/-! ## The operand buffer -/

/-- The byte written at `a`, or none if none was written since reset. -/
def Memory.read? : Memory → Nat → Option Byte
  | [], _ => none
  | (k, v) :: rest, a => if k = a then some v else Memory.read? rest a

/-- Write one byte, keeping the addresses strictly rising. -/
def Memory.write : Memory → Nat → Byte → Memory
  | [], a, b => [(a, b)]
  | (k, v) :: rest, a, b =>
    if a < k then (a, b) :: (k, v) :: rest
    else if a = k then (a, b) :: rest
    else (k, v) :: Memory.write rest a b

/-- The canonical form: addresses strictly rising, and inside BUF (20_memory.md R60). -/
abbrev Memory.wf (m : Memory) : Prop := m.Pairwise (fun x y => x.1 < y.1) ∧ ∀ x ∈ m, x.1 < 256

/-- `BUF[a]` (00_scope.md R22): the byte written last, or its draw since reset (10_state.md R46; log entry 2). -/
def State.readByte (s : State) (a : Nat) : Byte := (s.buf.read? a).getD (Config.freeByte s.bufEpoch a)

/-- Write `BUF[a]`. -/
def State.writeByte (s : State) (a : Nat) (b : Byte) : State := { s with buf := s.buf.write a b }

/-- `MemRead(addr, n)` (00_scope.md R22). -/
def State.memRead (s : State) (addr n : Nat) : List Byte := (List.range n).map fun j => s.readByte (addr + j)

/-- `MemWrite(addr, n, bs)` with `n` the length of `bs` (00_scope.md R22). -/
def State.memWrite (s : State) (addr : Nat) : List Byte → State
  | [] => s
  | b :: bs => State.memWrite (s.writeByte addr b) (addr + 1) bs

/-! ## The registers -/

/-- `N[r]` (00_scope.md R22). -/
def State.num (s : State) (r : Reg) : Int := s.regs[r].val

/-- The magnitude of `N[r]`. -/
def State.mag (s : State) (r : Reg) : Nat := (s.num r).natAbs

/-- The limb count `len` of `N[r]` (10_state.md R31, R32). -/
def State.len (s : State) (r : Reg) : Nat := limbs s.cfg (s.mag r)

/-- Limb `k` of `N[r]` for any `k` below CAP (10_state.md R31): of the magnitude below `len`, and above it 0 after ZERO or
reset, else an unspecified word (R34; log entry 3). -/
def State.limb (s : State) (r : Reg) (k : Nat) : Nat :=
  if k < s.len r then limbOf s.cfg (s.mag r) k
  else
    match s.regs[r].tail with
    | .zeroed => 0
    | .drawn n => (Config.freeLimb n k).toNat % 2 ^ s.cfg.width

/-- Put `x` in number register `r`. -/
def State.setReg (s : State) (r : Reg) (x : NumReg) : State := { s with regs := s.regs.set r x }

/-- The draw counter advanced by one (log entry 3). -/
def State.nextDraw (s : State) : State := { s with draws := s.draws + 1 }

/-- `N[r] <- v` (00_scope.md R22): the canonical form of `v`, the limbs above it unspecified (10_state.md R34). -/
def State.writeNum (s : State) (r : Reg) (v : Int) : State :=
  (s.setReg r { val := v, tail := .drawn s.draws }).nextDraw

/-- ZERO's write: every limb of the register becomes 0 (41_transfer.md R120). -/
def State.zeroize (s : State) (r : Reg) : State := s.setReg r NumReg.cleared

/-- `SR <- v` (00_scope.md R22). -/
def State.setSr (s : State) (v : Word64) : State := { s with sr := v }

/-- The code recorded in STATUS.FCODE (60_exceptions.md R262). -/
def FaultCode.code : FaultCode → Nat
  | .illegalCommand => 0x01
  | .bufRange => 0x02
  | .bytesLen => 0x03
  | .bytesFit => 0x04
  | .hexLen => 0x05
  | .hexFit => 0x06
  | .capacity => 0x07
  | .divZero => 0x08
  | .modInvalid => 0x09
  | .notInvertible => 0x0A
  | .shiftRange => 0x0B
  | .bitCount => 0x0C
  | .splitPos => 0x0D
  | .splitAlias => 0x0E
  | .magSub => 0x0F

/-- STATUS.FCODE (10_state.md R42): 0 while FAULT is 0. -/
def State.fcode (s : State) : Nat :=
  match s.fault with
  | none => 0
  | some f => f.code

/-- The word `STATUS` reads as (10_state.md R42): `WIDTH` in 23:16, `FCODE` in 15:8, `LOST` in 1, `FAULT` in 0, the rest 0. -/
def State.status (s : State) : Word32 :=
  BitVec.ofNat 32 (s.cfg.width * 2 ^ 16 + s.fcode * 2 ^ 8 + s.lost.toNat * 2 + s.fault.isSome.toNat)

/-! ## The end of a command -/

/-- `CCNT` counts one command, modulo 2^64 (10_state.md R41). -/
def State.count (s : State) : State := { s with ccnt := s.ccnt + 1 }

/-- The command completes. -/
def State.complete (s : State) : Result := .next s.count

/-- Fault entry: FAULT, FCODE and FCMD are recorded and nothing else is written (60_exceptions.md R264, R267). -/
def State.enterFault (s : State) (f : FaultCode) (word : Word32) : State := { s with fault := some f, fcmd := word }

/-- `raise Fault(f)` by the command `word` (00_scope.md R22). -/
def State.raise (s : State) (f : FaultCode) (word : Word32) : Result := .next (s.enterFault f word)

/-- Write `N[r]` and complete, or raise the violation. -/
def State.commit (s : State) (word : Word32) (r : Reg) : Except FaultCode Int → Result
  | .ok v => (s.writeNum r v).complete
  | .error f => s.raise f word

/-- Write SR and complete. -/
def State.answer (s : State) (v : Word64) : Result := (s.setSr v).complete

/-- A command word that arrives while FAULT is 1: discarded, LOST set, nothing else (60_exceptions.md R270). -/
def State.discard (s : State) : State := { s with lost := true }

/-- Reset by CTRL (70_reset_and_hazards.md R290), the only way out of the faulted state (60_exceptions.md R271): the state of
power-on, with new draws in BUF (log entry 2). The accesses still waiting and the replies given are the host's. -/
def State.hwReset (s : State) : State :=
  { State.powerOn s.cfg with bufEpoch := s.bufEpoch + 1, draws := s.draws, inbox := s.inbox, replies := s.replies }

end Sys2Proof.Machine
end

