-- ==== Sys2Proof/Machine/Additive.lean ====
section
/-! DEFINITION. The additive commands (43_additive.md): ADD and SUB over the signed combinator, and the limb-level adder and
subtractor of R175. -/

namespace Sys2Proof.Machine

/-- ADD (R172). -/
def execAdd (rd ra rb : Reg) (s : State) : Result :=
  s.commit (encode (.add rd ra rb)) rd (addsub s.cfg (s.num ra) (isNeg (s.num rb)) (s.num rb))

/-- SUB (R173): add of the negation; the effective sign of a non-zero subtrahend is flipped. -/
def execSub (rd ra rb : Reg) (s : State) : Result :=
  s.commit (encode (.sub rd ra rb)) rd (addsub s.cfg (s.num ra) (decide (s.num rb ≠ 0) && !isNeg (s.num rb)) (s.num rb))

/-! ## Limb-level form (R175, informative) -/

/-- The `n` lowest limbs of a magnitude, the least significant first (10_state.md R31). -/
def limbList (c : Config) (m n : Nat) : List Nat := (List.range n).map (limbOf c m)

/-- The magnitude held by a limb list: `Σ limb[i] * 2^(W*i)` (10_state.md R31). -/
def limbValue (c : Config) : List Nat → Nat
  | [] => 0
  | x :: xs => x + 2 ^ c.width * limbValue c xs

/-- The ripple adder: `S_i = (A_i + B_i + k_i) mod 2^W`, `k_{i+1} = ⌊(A_i + B_i + k_i) / 2^W⌋`, and a last limb for a carry of 1
(R175). -/
def rippleAdd (c : Config) : List Nat → List Nat → Nat → List Nat
  | a :: as, b :: bs, k => (a + b + k) % 2 ^ c.width :: rippleAdd c as bs ((a + b + k) / 2 ^ c.width)
  | _, _, k => if k = 0 then [] else [k]

/-- The ripple subtractor: `D_i = (A_i - B_i - k_i) mod 2^W`, `k_{i+1} = 1` iff `A_i - B_i - k_i < 0` (R175). -/
def rippleSub (c : Config) : List Nat → List Nat → Nat → List Nat
  | a :: as, b :: bs, k =>
    (a + 2 ^ c.width - b - k) % 2 ^ c.width :: rippleSub c as bs (if a < b + k then 1 else 0)
  | _, _, _ => []

/-- A limb list without the zero limbs at its most significant end. -/
def stripLimbs : List Nat → List Nat
  | [] => []
  | x :: xs =>
    match stripLimbs xs with
    | [] => if x = 0 then [] else [x]
    | y :: ys => x :: y :: ys

/-- Trim leading zero limbs, keeping one limb at least (R175; 10_state.md R32). -/
def trimLimbs (ls : List Nat) : List Nat :=
  match stripLimbs ls with
  | [] => [0]
  | y :: ys => y :: ys

end Sys2Proof.Machine
end

