-- ==== Sys2Proof/Machine/Bits.lean ====
section
/-! DEFINITION. The bit-shift and bit-manipulation commands (46_bits.md): BLEN, GETBIT, GETBITS, SHR, INC, NEG, SPLIT. -/

namespace Sys2Proof.Machine

/-- BLEN (R230). -/
def execBlen (ra : Reg) (s : State) : Result := s.answer (srWord s.cfg (bitlen (s.mag ra)))

/-- GETBIT (R231). -/
def execGetbit (ra : Reg) (pos : Nat) (s : State) : Result := s.answer (srWord s.cfg (getBit s.cfg (s.num ra) pos))

/-- GETBITS (R232). -/
def execGetbits (ra : Reg) (off cnt : Nat) (s : State) : Result :=
  if s.cfg.width < cnt then s.raise .bitCount (encode (.getbits ra off cnt))
  else s.answer (srWord s.cfg ((s.mag ra >>> off) % 2 ^ cnt))

/-- SHR (R233), in place; SR receives the bits shifted out (R234). -/
def execShr (rd : Reg) (sh : Nat) (s : State) : Result :=
  if s.cfg.width ≤ sh then s.raise .shiftRange (encode (.shr rd sh))
  else ((s.setSr (srWord s.cfg (s.mag rd % 2 ^ sh))).writeNum rd (shiftRight (s.num rd) sh)).complete

/-- INC (R235), in place. -/
def execInc (rd : Reg) (s : State) : Result := s.commit (encode (.inc rd)) rd (increment s.cfg (s.num rd))

/-- NEG (R236), in place. -/
def execNeg (rd : Reg) (s : State) : Result := (s.writeNum rd (negate (s.num rd))).complete

/-- SPLIT (R237): the low part to `rd`, the high part to `rb`. -/
def execSplit (rd rb ra : Reg) (pos : Nat) (s : State) : Result :=
  if rd = rb then s.raise .splitAlias (encode (.split rd rb ra pos))
  else if pos = 0 then s.raise .splitPos (encode (.split rd rb ra pos))
  else ((s.writeNum rd (splitParts (s.num ra) pos).1).writeNum rb (splitParts (s.num ra) pos).2).complete

end Sys2Proof.Machine
end

