-- ==== Sys2Proof/Machine/Compare.lean ====
section
/-! DEFINITION. The comparison commands (42_compare.md): CMPM, EQ, ISZ, ISODD, ISNEG. -/

namespace Sys2Proof.Machine

/-- CMPM (R150): orders magnitudes, ignoring sign. -/
def execCmpm (ra rb : Reg) (s : State) : Result := s.answer (srOrder s.cfg (compareMagnitude s.cfg (s.mag ra) (s.mag rb)))

/-- EQ (R152). -/
def execEq (ra rb : Reg) (s : State) : Result := s.answer (srBool s.cfg (decide (s.num ra = s.num rb)))

/-- ISZ (R153). -/
def execIsz (ra : Reg) (s : State) : Result := s.answer (srBool s.cfg (decide (s.num ra = 0)))

/-- ISODD (R154): the lowest bit of the magnitude. -/
def execIsodd (ra : Reg) (s : State) : Result := s.answer (srWord s.cfg (s.mag ra % 2))

/-- ISNEG (R155). -/
def execIsneg (ra : Reg) (s : State) : Result := s.answer (srBool s.cfg (isNeg (s.num ra)))

end Sys2Proof.Machine
end

