-- ==== Sys2Proof/Machine/Modular.lean ====
section
/-! DEFINITION. The modular reduction and modular inverse commands (45_modular.md): MODRED, MODINV. -/

namespace Sys2Proof.Machine

/-- MODRED (R210), in place. -/
def execModred (rd rc : Reg) (s : State) : Result :=
  s.commit (encode (.modred rd rc)) rd (modReduce s.cfg (s.num rd) (s.num rc))

/-- MODINV (R213); when `|m| = 1` the result magnitude is a draw (log entry 6). -/
def execModinv (rd ra rc : Reg) (s : State) : Result :=
  s.commit (encode (.modinv rd ra rc)) rd (modInverse s.cfg (s.num ra) (s.num rc) (Config.freeUnit s.draws))

end Sys2Proof.Machine
end

