-- ==== Sys2Proof/Machine/Multiplicative.lean ====
section
/-! DEFINITION. The multiplicative commands (44_multiplicative.md): MUL, DIV, MODMUL. -/

namespace Sys2Proof.Machine

/-- MUL (R190). -/
def execMul (rd ra rb : Reg) (s : State) : Result :=
  s.commit (encode (.mul rd ra rb)) rd (multiply s.cfg (s.num ra) (s.num rb))

/-- DIV (R192). -/
def execDiv (rd ra rb : Reg) (s : State) : Result :=
  s.commit (encode (.div rd ra rb)) rd (divide s.cfg (s.num ra) (s.num rb))

/-- MODMUL (R194). -/
def execModmul (rd ra rb rc : Reg) (s : State) : Result :=
  s.commit (encode (.modmul rd ra rb rc)) rd (modularMultiply s.cfg (s.num ra) (s.num rb) (s.num rc))

end Sys2Proof.Machine
end

