-- ==== Sys2Proof/Machine/Transfer.lean ====
section
/-! DEFINITION. The construction, copy and conversion commands (41_transfer.md): ZERO, MOV, LDB, STB, LDW, LDH, STH. -/

namespace Sys2Proof.Machine

/-- The conditions every transfer of `n` bytes checks first (60_exceptions.md R266): the length's contract, then the range
(20_memory.md R65). -/
def fieldFault (maxLen : Nat) (lenFault : FaultCode) (addr n : Nat) : Option FaultCode :=
  if n = 0 ∨ maxLen < n then some lenFault
  else if 256 < addr + n then some .bufRange
  else none

/-- The unsigned big-endian integer in `BUF[addr..addr+n-1]` (20_memory.md R61). -/
def State.bytesValue (s : State) (addr n : Nat) : Nat := ofDigits 256 ((s.memRead addr n).map (·.toNat))

/-- The integer written in hex text in `BUF[addr..addr+n-1]` (20_memory.md R63; 41_transfer.md R128). -/
def State.hexValue (s : State) (addr n : Nat) : Nat := ofDigits 16 ((s.memRead addr n).map (hexVal s.cfg))

/-- ZERO (R120). -/
def execZero (rd : Reg) (s : State) : Result := (s.zeroize rd).complete

/-- MOV (R121). -/
def execMov (rd ra : Reg) (s : State) : Result := (s.writeNum rd (s.num ra)).complete

/-- LDB (R122). -/
def execLdb (rd : Reg) (addr len : Nat) (s : State) : Result :=
  match fieldFault 64 .bytesLen addr len with
  | some f => s.raise f (encode (.ldb rd addr len))
  | none => (s.writeNum rd (s.bytesValue addr len)).complete

/-- STB (R124): the magnitude only, zero-padded on the left. -/
def execStb (ra : Reg) (addr len : Nat) (s : State) : Result :=
  match fieldFault 64 .bytesLen addr len with
  | some f => s.raise f (encode (.stb ra addr len))
  | none =>
    if 256 ^ len ≤ s.mag ra then s.raise .bytesFit (encode (.stb ra addr len))
    else (s.memWrite addr ((toDigits 8 (s.mag ra) len).map (BitVec.ofNat 8))).complete

/-- LDW (R126): `W/8` bytes, big-endian, two's complement. -/
def execLdw (rd : Reg) (addr : Nat) (s : State) : Result :=
  if 256 < addr + s.cfg.width / 8 then s.raise .bufRange (encode (.ldw rd addr))
  else (s.writeNum rd (sext s.cfg.width (s.bytesValue addr (s.cfg.width / 8)))).complete

/-- LDH (R128). -/
def execLdh (rd : Reg) (addr len : Nat) (s : State) : Result :=
  match fieldFault 128 .hexLen addr len with
  | some f => s.raise f (encode (.ldh rd addr len))
  | none => (s.writeNum rd (s.hexValue addr len)).complete

/-- STH (R130): the magnitude only, zero-padded on the left, uppercase. -/
def execSth (ra : Reg) (addr len : Nat) (s : State) : Result :=
  match fieldFault 128 .hexLen addr len with
  | some f => s.raise f (encode (.sth ra addr len))
  | none =>
    if 16 ^ len ≤ s.mag ra then s.raise .hexFit (encode (.sth ra addr len))
    else (s.memWrite addr ((toDigits 4 (s.mag ra) len).map hexChr)).complete

end Sys2Proof.Machine
end

