-- ==== Sys2Proof/Machine/Dispatch.lean ====
section
/-! DEFINITION. One arm per command. -/

namespace Sys2Proof.Machine

def exec (i : Instr) (s : State) : Host.Outcome State Fault Refusal :=
  match i with
  | .zero rd => Sys2Proof.Machine.execZero rd s
  | .mov rd ra => Sys2Proof.Machine.execMov rd ra s
  | .ldb rd addr len => Sys2Proof.Machine.execLdb rd addr len s
  | .stb ra addr len => Sys2Proof.Machine.execStb ra addr len s
  | .ldw rd addr => Sys2Proof.Machine.execLdw rd addr s
  | .ldh rd addr len => Sys2Proof.Machine.execLdh rd addr len s
  | .sth ra addr len => Sys2Proof.Machine.execSth ra addr len s
  | .cmpm ra rb => Sys2Proof.Machine.execCmpm ra rb s
  | .eq ra rb => Sys2Proof.Machine.execEq ra rb s
  | .isz ra => Sys2Proof.Machine.execIsz ra s
  | .isodd ra => Sys2Proof.Machine.execIsodd ra s
  | .isneg ra => Sys2Proof.Machine.execIsneg ra s
  | .add rd ra rb => Sys2Proof.Machine.execAdd rd ra rb s
  | .sub rd ra rb => Sys2Proof.Machine.execSub rd ra rb s
  | .mul rd ra rb => Sys2Proof.Machine.execMul rd ra rb s
  | .div rd ra rb => Sys2Proof.Machine.execDiv rd ra rb s
  | .modmul rd ra rb rc => Sys2Proof.Machine.execModmul rd ra rb rc s
  | .modred rd rc => Sys2Proof.Machine.execModred rd rc s
  | .modinv rd ra rc => Sys2Proof.Machine.execModinv rd ra rc s
  | .blen ra => Sys2Proof.Machine.execBlen ra s
  | .getbit ra pos => Sys2Proof.Machine.execGetbit ra pos s
  | .getbits ra off cnt => Sys2Proof.Machine.execGetbits ra off cnt s
  | .shr rd sh => Sys2Proof.Machine.execShr rd sh s
  | .inc rd => Sys2Proof.Machine.execInc rd s
  | .neg rd => Sys2Proof.Machine.execNeg rd s
  | .split rd rb ra pos => Sys2Proof.Machine.execSplit rd rb ra pos s

end Sys2Proof.Machine
end

