-- ==== Sys2Proof/Machine/Window.lean ====
section
/-! DEFINITION. The host window (20_memory.md section 4), and what each access of the host does: issuing a command among them. -/

namespace Sys2Proof.Machine

/-- The registers of the host window (20_memory.md R66). -/
inductive Port where
  | cmd
  | status
  | fcmd
  | ctrl
  | sr
  | ccnt
  | buf (a : Nat)
  deriving DecidableEq, Repr

/-- The register at an offset from HOST_BASE, none where the window has none (20_memory.md R66). -/
def portAt (offset : Nat) : Option Port :=
  if offset = 0x000 then some .cmd
  else if offset = 0x004 then some .status
  else if offset = 0x008 then some .fcmd
  else if offset = 0x00C then some .ctrl
  else if offset = 0x010 then some .sr
  else if offset = 0x018 then some .ccnt
  else if 0x100 ≤ offset ∧ offset ≤ 0x1FF then some (.buf (offset - 0x100))
  else none

/-- The register at a bus address. -/
def portOf (c : Config) (addr : Nat) : Option Port := if addr < c.hostBase then none else portAt (addr - c.hostBase)

/-- The width at which a register is accessed (20_memory.md R66, R67). -/
def portWidth (c : Config) : Port → Nat
  | .cmd => 32
  | .status => 32
  | .fcmd => 32
  | .ctrl => 32
  | .sr => c.width
  | .ccnt => 64
  | .buf _ => 8

/-- What a read returns (20_memory.md R66, R67): CMD and CTRL read 0 (10_state.md R44, R45). -/
def State.portValue (s : State) : Port → Word64
  | .cmd => 0
  | .status => s.status.setWidth 64
  | .fcmd => s.fcmd.setWidth 64
  | .ctrl => 0
  | .sr => s.sr
  | .ccnt => s.ccnt
  | .buf a => (s.readByte a).setWidth 64

/-- The command word `w` arrives (10_state.md R45): discarded while FAULT is 1 (60_exceptions.md R270), else decoded and
performed, an illegal word raising ILLEGAL_COMMAND (30_encoding.md R100). -/
def State.issue (s : State) (w : Word32) : Result :=
  if s.fault.isSome then .next s.discard
  else
    match decode w with
    | .ok i => exec i s
    | .error _ => s.raise .illegalCommand w

/-- What a write does (20_memory.md R67): a write to a read-only register is ignored; CTRL resets on bit 0 = 1 and does nothing
else (10_state.md R44). -/
def State.portWrite (s : State) (data : Word64) : Port → Result
  | .cmd => s.issue (data.setWidth 32)
  | .status => .next s
  | .fcmd => .next s
  | .ctrl => if data.getLsbD 0 then .next s.hwReset else .next s
  | .sr => .next s
  | .ccnt => .next s
  | .buf a => .next (s.writeByte a (data.setWidth 8))

/-- Give the host the data of its read. -/
def State.reply (s : State) (r : HostReply) : State := { s with replies := s.replies ++ [r] }

/-- The register at a bus address accessed at its own width, or the refusal of 20_memory.md R67. -/
def portFor (c : Config) (addr width : Nat) : Except Refusal Port :=
  match portOf c addr with
  | none => .error (.hostOffset addr)
  | some p => if width = portWidth c p then .ok p else .error (.hostWidth addr width)

/-- One access of the host (20_memory.md R66, R67). Reads have no side effect on the core. -/
def State.hostAccess (s : State) : HostAccess → Result
  | .read addr width =>
    match portFor s.cfg addr width with
    | .ok p => .next (s.reply { addr := addr, width := width, data := s.portValue p })
    | .error r => .refused r
  | .write addr width data =>
    match portFor s.cfg addr width with
    | .ok p => s.portWrite data p
    | .error r => .refused r

/-- The accesses waiting at the port become `l`. -/
def State.setInbox (s : State) (l : List HostAccess) : State := { s with inbox := l }

/-- The host's write of a command word to CMD. -/
def cmdWrite (c : Config) (w : Word32) : HostAccess := .write c.hostBase 32 (w.setWidth 64)

/-- The next access of the host is performed, in the host's issue order (20_memory.md R71); with none waiting the core is idle
with its state held (60_exceptions.md R279). -/
def State.advance (s : State) : Result :=
  match s.inbox with
  | [] => .next s
  | a :: rest => (s.setInbox rest).hostAccess a

end Sys2Proof.Machine
end

