-- ==== Sys2Proof/Machine/Step.lean ====
section
/-! DEFINITION. One step of the machine, and the state whose next step runs a given command word. -/

namespace Sys2Proof.Machine

/-- One step: the host's next access (20_memory.md R71). A command is one atomic step (70_reset_and_hazards.md R302). -/
def step (s : State) : Host.Outcome State Fault Refusal := s.advance

/-- `s` with the 32-bit word whose low `nbits` bits are `w`'s (the others 0) as the host's next access, a write to CMD: the core
fetches nothing (10_state.md R40), so this write is where a command comes from (log entry 5). -/
def State.withFetchWord (s : State) (nbits w : Nat) : State :=
  s.setInbox (cmdWrite s.cfg (BitVec.ofNat 32 (w % 2 ^ nbits)) :: s.inbox)

end Sys2Proof.Machine
end

