-- ==== Sys2Proof/Machine/Assembler.lean ====
section
/-! DEFINITION. The assembler syntax of 30_encoding.md R104 and the pseudo-instructions of R105. No step uses it. -/

namespace Sys2Proof.Machine

/-- The mnemonics of 30_encoding.md R104 and R105. -/
inductive AsmName where
  | zero | mov | ldb | stb | ldw | ldh | sth | cmpm | eq | isz | isodd | isneg | add | sub | mul | div | modmul | modred
  | modinv | blen | getbit | getbits | shr | inc | neg | split
  /-- pseudo-instructions (R105) -/
  | clr | cmp | dbl | sqr | modsqr
  deriving DecidableEq, Repr

/-- Every mnemonic with its spelling (R104, R105). -/
def asmNames : List (List Char × AsmName) :=
  [(['Z', 'E', 'R', 'O'], .zero), (['M', 'O', 'V'], .mov), (['L', 'D', 'B'], .ldb), (['S', 'T', 'B'], .stb),
   (['L', 'D', 'W'], .ldw), (['L', 'D', 'H'], .ldh), (['S', 'T', 'H'], .sth), (['C', 'M', 'P', 'M'], .cmpm),
   (['E', 'Q'], .eq), (['I', 'S', 'Z'], .isz), (['I', 'S', 'O', 'D', 'D'], .isodd), (['I', 'S', 'N', 'E', 'G'], .isneg),
   (['A', 'D', 'D'], .add), (['S', 'U', 'B'], .sub), (['M', 'U', 'L'], .mul), (['D', 'I', 'V'], .div),
   (['M', 'O', 'D', 'M', 'U', 'L'], .modmul), (['M', 'O', 'D', 'R', 'E', 'D'], .modred),
   (['M', 'O', 'D', 'I', 'N', 'V'], .modinv), (['B', 'L', 'E', 'N'], .blen), (['G', 'E', 'T', 'B', 'I', 'T'], .getbit),
   (['G', 'E', 'T', 'B', 'I', 'T', 'S'], .getbits), (['S', 'H', 'R'], .shr), (['I', 'N', 'C'], .inc), (['N', 'E', 'G'], .neg),
   (['S', 'P', 'L', 'I', 'T'], .split), (['C', 'L', 'R'], .clr), (['C', 'M', 'P'], .cmp), (['D', 'B', 'L'], .dbl),
   (['S', 'Q', 'R'], .sqr), (['M', 'O', 'D', 'S', 'Q', 'R'], .modsqr)]

/-- An operand: a number register or an immediate (R104). -/
inductive AsmOperand where
  | reg (r : Reg)
  | imm (n : Nat)
  deriving DecidableEq, Repr

/-- The instruction a mnemonic with its operands stands for, in the operand order of R104; a pseudo-instruction is its expansion
(R105). -/
def asmInstr : AsmName → List AsmOperand → Option Instr
  | .zero, [.reg d] => some (.zero d)
  | .mov, [.reg d, .reg a] => some (.mov d a)
  | .ldb, [.reg d, .imm addr, .imm len] => some (.ldb d addr len)
  | .stb, [.reg a, .imm addr, .imm len] => some (.stb a addr len)
  | .ldw, [.reg d, .imm addr] => some (.ldw d addr)
  | .ldh, [.reg d, .imm addr, .imm len] => some (.ldh d addr len)
  | .sth, [.reg a, .imm addr, .imm len] => some (.sth a addr len)
  | .cmpm, [.reg a, .reg b] => some (.cmpm a b)
  | .eq, [.reg a, .reg b] => some (.eq a b)
  | .isz, [.reg a] => some (.isz a)
  | .isodd, [.reg a] => some (.isodd a)
  | .isneg, [.reg a] => some (.isneg a)
  | .add, [.reg d, .reg a, .reg b] => some (.add d a b)
  | .sub, [.reg d, .reg a, .reg b] => some (.sub d a b)
  | .mul, [.reg d, .reg a, .reg b] => some (.mul d a b)
  | .div, [.reg d, .reg a, .reg b] => some (.div d a b)
  | .modmul, [.reg d, .reg a, .reg b, .reg c] => some (.modmul d a b c)
  | .modred, [.reg d, .reg c] => some (.modred d c)
  | .modinv, [.reg d, .reg a, .reg c] => some (.modinv d a c)
  | .blen, [.reg a] => some (.blen a)
  | .getbit, [.reg a, .imm pos] => some (.getbit a pos)
  | .getbits, [.reg a, .imm off, .imm cnt] => some (.getbits a off cnt)
  | .shr, [.reg d, .imm sh] => some (.shr d sh)
  | .inc, [.reg d] => some (.inc d)
  | .neg, [.reg d] => some (.neg d)
  | .split, [.reg d, .reg b, .reg a, .imm pos] => some (.split d b a pos)
  | .clr, [.reg d] => some (.zero d)
  | .cmp, [.reg a, .reg b] => some (.cmpm a b)
  | .dbl, [.reg d, .reg a] => some (.add d a a)
  | .sqr, [.reg d, .reg a] => some (.mul d a a)
  | .modsqr, [.reg d, .reg a, .reg c] => some (.modmul d a a c)
  | _, _ => none

/-- "An assembler rejects an immediate that does not fit its field" (R104). -/
def assemble (n : AsmName) (ops : List AsmOperand) : Option Instr := (asmInstr n ops).filter Instr.WellFormed

/-- The mnemonic and operands of an instruction (R104). -/
def disassemble : Instr → AsmName × List AsmOperand
  | .zero d => (.zero, [.reg d])
  | .mov d a => (.mov, [.reg d, .reg a])
  | .ldb d addr len => (.ldb, [.reg d, .imm addr, .imm len])
  | .stb a addr len => (.stb, [.reg a, .imm addr, .imm len])
  | .ldw d addr => (.ldw, [.reg d, .imm addr])
  | .ldh d addr len => (.ldh, [.reg d, .imm addr, .imm len])
  | .sth a addr len => (.sth, [.reg a, .imm addr, .imm len])
  | .cmpm a b => (.cmpm, [.reg a, .reg b])
  | .eq a b => (.eq, [.reg a, .reg b])
  | .isz a => (.isz, [.reg a])
  | .isodd a => (.isodd, [.reg a])
  | .isneg a => (.isneg, [.reg a])
  | .add d a b => (.add, [.reg d, .reg a, .reg b])
  | .sub d a b => (.sub, [.reg d, .reg a, .reg b])
  | .mul d a b => (.mul, [.reg d, .reg a, .reg b])
  | .div d a b => (.div, [.reg d, .reg a, .reg b])
  | .modmul d a b c => (.modmul, [.reg d, .reg a, .reg b, .reg c])
  | .modred d c => (.modred, [.reg d, .reg c])
  | .modinv d a c => (.modinv, [.reg d, .reg a, .reg c])
  | .blen a => (.blen, [.reg a])
  | .getbit a pos => (.getbit, [.reg a, .imm pos])
  | .getbits a off cnt => (.getbits, [.reg a, .imm off, .imm cnt])
  | .shr d sh => (.shr, [.reg d, .imm sh])
  | .inc d => (.inc, [.reg d])
  | .neg d => (.neg, [.reg d])
  | .split d b a pos => (.split, [.reg d, .reg b, .reg a, .imm pos])

/-! ## Text -/

/-- A digit's value in base 10 or 16, either case of a letter. -/
def digitValue (base : Nat) (ch : Char) : Option Nat :=
  let n := ch.toNat
  let d :=
    if 0x30 ≤ n ∧ n ≤ 0x39 then some (n - 0x30)
    else if 0x41 ≤ n ∧ n ≤ 0x46 then some (n - 0x37)
    else if 0x61 ≤ n ∧ n ≤ 0x66 then some (n - 0x57)
    else none
  d.filter (· < base)

/-- A number of one digit or more. DESIGN CHOICE (log entry 10): leading zeros are accepted, so `N01` names `N1` and `007` is 7;
30_encoding.md R104 says nothing of them. Safe for every claim about the machine. -/
def parseNumber (base : Nat) : List Char → Option Nat
  | [] => none
  | ch :: rest => (ch :: rest).foldl (fun acc x => do return (← acc) * base + (← digitValue base x)) (some 0)

/-- A register `N0` to `N15`, either case of the letter, or an immediate, decimal or `0x` hexadecimal (R104). DESIGN CHOICE (log
entry 10): either case of a hexadecimal digit, `0X` refused. -/
def parseOperand : List Char → Option AsmOperand
  | 'N' :: rest => (parseNumber 10 rest).bind fun n => if h : n < 16 then some (.reg ⟨n, h⟩) else none
  | 'n' :: rest => (parseNumber 10 rest).bind fun n => if h : n < 16 then some (.reg ⟨n, h⟩) else none
  | '0' :: 'x' :: rest => (parseNumber 16 rest).map .imm
  | cs => (parseNumber 10 cs).map .imm

/-- The pieces of a text between the separators `sep`. -/
def pieces (sep : Char) : List Char → List (List Char)
  | [] => [[]]
  | ch :: rest =>
    if ch = sep then [] :: pieces sep rest
    else
      match pieces sep rest with
      | [] => [[ch]]
      | p :: ps => (ch :: p) :: ps

/-- Parse each piece of an operand list between commas (R104). DESIGN CHOICE (log entry 10): every space in a piece is left out, around
an operand and inside it, so `N 1` reads as `N1` and `1 6` as 16; R104 says nothing of blanks. Safe for every claim about the
machine. -/
def parseOperands (cs : List Char) : Option (List AsmOperand) :=
  (pieces ',' cs).mapM fun p => parseOperand (p.filter (· ≠ ' '))

/-- One command per line: `MNEMONIC operand, operand, ...` (R104). DESIGN CHOICE (log entry 10): spaces before the mnemonic are left
out, mnemonics are read in capitals only, and a line with anything else on it (a tab, a comment) is no command. -/
def parseLine (line : List Char) : Option Instr :=
  let cs := line.dropWhile (· = ' ')
  match asmNames.find? (fun e => e.1 = cs.takeWhile (· ≠ ' ')) with
  | some e => (parseOperands (cs.dropWhile (· ≠ ' '))).bind (assemble e.2)
  | none => none

end Sys2Proof.Machine
end

