-- ==== Sys2Proof/Safety.lean ====
section
/-! DEFINITION. The terms the statements use: the invariant of the machine, the frames of the commands, fault entry, and when two
states look alike from outside. -/

namespace Sys2Proof.Machine

/-- The magnitude `m` fits a number register: it needs at most CAP limbs (10_state.md R33). -/
def FitsRegister (c : Config) (m : Nat) : Prop := m < 2 ^ (c.width * c.cap)

/-- What every reachable state satisfies: registers within capacity (10_state.md R32, R33), SR a `W`-bit word (R37), BUF in its
canonical form, FCMD 0 and LOST 0 while FAULT is 0 (R42, R43), and MAG_SUB never recorded (60_exceptions.md R262). -/
structure State.Inv (s : State) : Prop where
  regs  : ∀ r, FitsRegister s.cfg (s.mag r)
  sr    : s.sr.toNat < 2 ^ s.cfg.width
  buf   : s.buf.wf
  fcmd  : s.fault = none → s.fcmd = 0
  lost  : s.fault = none → s.lost = false
  code  : s.fault ≠ some .magSub

/-- Nothing but number registers, SR, CCNT and BUF bytes (and the model's draw counter) differs: the parameters, STATUS, FCMD and
the host's port are the same. -/
structure SameControl (s t : State) : Prop where
  cfg      : t.cfg = s.cfg
  fault    : t.fault = s.fault
  lost     : t.lost = s.lost
  fcmd     : t.fcmd = s.fcmd
  bufEpoch : t.bufEpoch = s.bufEpoch
  inbox    : t.inbox = s.inbox
  replies  : t.replies = s.replies

/-- Every byte of BUF reads as before. -/
def SameBuf (s t : State) : Prop := ∀ a, t.readByte a = s.readByte a

/-- Every number register not in `ds` holds the value it held, which is all of it that can be observed (10_state.md R32, R34). -/
def SameRegsBut (ds : List Reg) (s t : State) : Prop := ∀ r, r ∉ ds → t.num r = s.num r

/-- The frame of a command that completes and may write the number registers `ds` only. -/
structure RegFrame (ds : List Reg) (s t : State) : Prop where
  ccnt    : t.ccnt = s.ccnt + 1
  control : SameControl s t
  sr      : t.sr = s.sr
  buf     : SameBuf s t
  regs    : SameRegsBut ds s t

/-- The frame of a command that completes and may write SR only. -/
structure SrFrame (s t : State) : Prop where
  ccnt    : t.ccnt = s.ccnt + 1
  control : SameControl s t
  buf     : SameBuf s t
  regs    : SameRegsBut [] s t

/-- The frame of a command that completes and may write the `n` bytes of BUF from `addr` on only. -/
structure StoreFrame (addr n : Nat) (s t : State) : Prop where
  ccnt    : t.ccnt = s.ccnt + 1
  control : SameControl s t
  sr      : t.sr = s.sr
  buf     : ∀ a, a < addr ∨ addr + n ≤ a → t.readByte a = s.readByte a
  regs    : SameRegsBut [] s t

/-- The command `i` raises the fault `f` and writes nothing else than FAULT, FCODE and FCMD (60_exceptions.md R264, R267). -/
def Raises (i : Instr) (f : FaultCode) (s : State) : Prop :=
  exec i s = .next { s with fault := some f, fcmd := encode i }

/-- Two states that differ at most in the limbs above the registers' limb counts (10_state.md R34). -/
structure SameVisible (s t : State) : Prop where
  cfg      : t.cfg = s.cfg
  num      : ∀ r, t.num r = s.num r
  sr       : t.sr = s.sr
  fault    : t.fault = s.fault
  lost     : t.lost = s.lost
  fcmd     : t.fcmd = s.fcmd
  ccnt     : t.ccnt = s.ccnt
  buf      : t.buf = s.buf
  bufEpoch : t.bufEpoch = s.bufEpoch
  draws    : t.draws = s.draws
  inbox    : t.inbox = s.inbox
  replies  : t.replies = s.replies

/-- The host's write that resets the core (10_state.md R44). -/
def IsResetWrite (c : Config) : HostAccess → Prop
  | .read _ _ => False
  | .write addr width data => addr = c.hostBase + 0x00C ∧ width = 32 ∧ data.getLsbD 0 = true

end Sys2Proof.Machine
end

