-- ==== Sys2Proof/Certificates/Slice0/Obligations.lean ====
section
/-! DEFINITION. The statements about the core, each from the rules of spec/ its docstring names. In the statements of the commands
the first clause is the encoding of 30_encoding.md R92-R99, a fault clause says that the state changes in FAULT, FCODE and FCMD
only (`Raises`), and a completion clause has a frame. -/

open Sys2Proof Sys2Proof.Machine

/-! ## Construction, copy and conversion (41_transfer.md) -/

/-- R120: ZERO clears the value and every limb of `Nd`, those beyond the new length too. -/
def Obligations.ZeroClearsEveryLimb : Prop :=
  ∀ (rd : Reg) (s : State),
    decode (BitVec.ofNat 32 (0x01 * 2 ^ 26 + rd * 2 ^ 22)) = .ok (.zero rd) ∧
    ∃ t, exec (.zero rd) s = .next t ∧ t.num rd = 0 ∧ (∀ k, t.limb rd k = 0) ∧ RegFrame [rd] s t

/-- R121: MOV copies the value; with `rd = ra` the value stays. -/
def Obligations.MovCopiesTheValue : Prop :=
  ∀ (rd ra : Reg) (s : State),
    decode (BitVec.ofNat 32 (0x02 * 2 ^ 26 + rd * 2 ^ 22 + ra * 2 ^ 18)) = .ok (.mov rd ra) ∧
    ∃ t, exec (.mov rd ra) s = .next t ∧ t.num rd = s.num ra ∧ RegFrame [rd] s t

/-- R122: LDB reads `len` bytes as a big-endian unsigned integer. -/
def Obligations.LdbReadsBigEndianBytes : Prop :=
  ∀ (rd : Reg) (addr len : Nat) (s : State),
    (addr < 256 → len < 256 →
      decode (BitVec.ofNat 32 (0x03 * 2 ^ 26 + rd * 2 ^ 22 + addr * 2 ^ 10 + len * 2 ^ 2)) = .ok (.ldb rd addr len)) ∧
    (len = 0 ∨ 64 < len → Raises (.ldb rd addr len) .bytesLen s) ∧
    (1 ≤ len → len ≤ 64 → 256 < addr + len → Raises (.ldb rd addr len) .bufRange s) ∧
    (1 ≤ len → len ≤ 64 → addr + len ≤ 256 →
      ∃ t, exec (.ldb rd addr len) s = .next t ∧
        t.num rd = ((∑ j ∈ Finset.range len, (s.readByte (addr + j)).toNat * 256 ^ (len - 1 - j) : Nat) : Int) ∧
        RegFrame [rd] s t)

/-- R124: STB writes the magnitude as `len` big-endian bytes, zero-padded on the left. -/
def Obligations.StbWritesBigEndianBytes : Prop :=
  ∀ (ra : Reg) (addr len : Nat) (s : State),
    (addr < 256 → len < 256 →
      decode (BitVec.ofNat 32 (0x04 * 2 ^ 26 + ra * 2 ^ 18 + addr * 2 ^ 10 + len * 2 ^ 2)) = .ok (.stb ra addr len)) ∧
    (len = 0 ∨ 64 < len → Raises (.stb ra addr len) .bytesLen s) ∧
    (1 ≤ len → len ≤ 64 → 256 < addr + len → Raises (.stb ra addr len) .bufRange s) ∧
    (1 ≤ len → len ≤ 64 → addr + len ≤ 256 → 256 ^ len ≤ s.mag ra → Raises (.stb ra addr len) .bytesFit s) ∧
    (1 ≤ len → len ≤ 64 → addr + len ≤ 256 → s.mag ra < 256 ^ len →
      ∃ t, exec (.stb ra addr len) s = .next t ∧
        (∀ j, j < len → (t.readByte (addr + j)).toNat = s.mag ra / 256 ^ (len - 1 - j) % 256) ∧
        StoreFrame addr len s t)

/-- R126: LDW reads `W/8` bytes as a big-endian two's-complement word; its only fault is BUF_RANGE. -/
def Obligations.LdwReadsASignedWord : Prop :=
  ∀ (rd : Reg) (addr : Nat) (s : State),
    (addr < 256 → decode (BitVec.ofNat 32 (0x05 * 2 ^ 26 + rd * 2 ^ 22 + addr * 2 ^ 10)) = .ok (.ldw rd addr)) ∧
    (256 < addr + s.cfg.width / 8 → Raises (.ldw rd addr) .bufRange s) ∧
    (addr + s.cfg.width / 8 ≤ 256 →
      ∃ t u, exec (.ldw rd addr) s = .next t ∧
        u = (∑ j ∈ Finset.range (s.cfg.width / 8), (s.readByte (addr + j)).toNat * 256 ^ (s.cfg.width / 8 - 1 - j) : Nat) ∧
        t.num rd = (if u < 2 ^ (s.cfg.width - 1) then (u : Int) else (u : Int) - 2 ^ s.cfg.width) ∧
        RegFrame [rd] s t)

/-- R127: the digit value of every byte; a byte that is no digit reads 0. -/
def Obligations.HexDigitValues : Prop :=
  ∀ (c : Config) (b : Byte),
    (0x30 ≤ b.toNat → b.toNat ≤ 0x39 → hexVal c b = b.toNat - 0x30) ∧
    (0x41 ≤ b.toNat → b.toNat ≤ 0x46 → hexVal c b = b.toNat - 0x37) ∧
    (0x61 ≤ b.toNat → b.toNat ≤ 0x66 → hexVal c b = if c.hexLowerAccept then b.toNat - 0x57 else 0) ∧
    ((b.toNat < 0x30 ∨ 0x39 < b.toNat) → (b.toNat < 0x41 ∨ 0x46 < b.toNat) → (b.toNat < 0x61 ∨ 0x66 < b.toNat) →
      hexVal c b = 0)

/-- R128: LDH reads `len` hex digits, the first the most significant; an invalid character reads 0 and never faults. -/
def Obligations.LdhReadsHexText : Prop :=
  ∀ (rd : Reg) (addr len : Nat) (s : State),
    (addr < 256 → len < 256 →
      decode (BitVec.ofNat 32 (0x06 * 2 ^ 26 + rd * 2 ^ 22 + addr * 2 ^ 10 + len * 2 ^ 2)) = .ok (.ldh rd addr len)) ∧
    (len = 0 ∨ 128 < len → Raises (.ldh rd addr len) .hexLen s) ∧
    (1 ≤ len → len ≤ 128 → 256 < addr + len → Raises (.ldh rd addr len) .bufRange s) ∧
    (1 ≤ len → len ≤ 128 → addr + len ≤ 256 →
      ∃ t, exec (.ldh rd addr len) s = .next t ∧
        t.num rd = ((∑ j ∈ Finset.range len, hexVal s.cfg (s.readByte (addr + j)) * 16 ^ (len - 1 - j) : Nat) : Int) ∧
        RegFrame [rd] s t)

/-- R129, R130: STH writes the magnitude as `len` uppercase hex digits, zero-padded on the left. -/
def Obligations.SthWritesHexText : Prop :=
  ∀ (ra : Reg) (addr len : Nat) (s : State),
    (addr < 256 → len < 256 →
      decode (BitVec.ofNat 32 (0x07 * 2 ^ 26 + ra * 2 ^ 18 + addr * 2 ^ 10 + len * 2 ^ 2)) = .ok (.sth ra addr len)) ∧
    (len = 0 ∨ 128 < len → Raises (.sth ra addr len) .hexLen s) ∧
    (1 ≤ len → len ≤ 128 → 256 < addr + len → Raises (.sth ra addr len) .bufRange s) ∧
    (1 ≤ len → len ≤ 128 → addr + len ≤ 256 → 16 ^ len ≤ s.mag ra → Raises (.sth ra addr len) .hexFit s) ∧
    (1 ≤ len → len ≤ 128 → addr + len ≤ 256 → s.mag ra < 16 ^ len →
      ∃ t, exec (.sth ra addr len) s = .next t ∧
        (∀ j, j < len →
          (t.readByte (addr + j)).toNat =
            (if s.mag ra / 16 ^ (len - 1 - j) % 16 ≤ 9 then 0x30 + s.mag ra / 16 ^ (len - 1 - j) % 16
             else 0x41 + (s.mag ra / 16 ^ (len - 1 - j) % 16 - 10))) ∧
        StoreFrame addr len s t)

/-- R123: STB then LDB of the same field reproduces every non-negative value that fits. -/
def Obligations.BytesRoundTrip : Prop :=
  ∀ (ra rd : Reg) (addr n : Nat) (s : State),
    1 ≤ n → n ≤ 64 → addr + n ≤ 256 → 0 ≤ s.num ra → s.mag ra < 256 ^ n →
    ∃ t u, exec (.stb ra addr n) s = .next t ∧ exec (.ldb rd addr n) t = .next u ∧ u.num rd = s.num ra ∧
      u.fault = s.fault

/-- R131: STH then LDH of the same field reproduces every non-negative value that fits, for either HEX_LOWER_ACCEPT. -/
def Obligations.HexRoundTrip : Prop :=
  ∀ (ra rd : Reg) (addr n : Nat) (s : State),
    1 ≤ n → n ≤ 128 → addr + n ≤ 256 → 0 ≤ s.num ra → s.mag ra < 16 ^ n →
    ∃ t u, exec (.sth ra addr n) s = .next t ∧ exec (.ldh rd addr n) t = .next u ∧ u.num rd = s.num ra ∧
      u.fault = s.fault

/-! ## Comparison (42_compare.md) -/

/-- R150, R151: CMPM answers the sign of `|N[ra]| - |N[rb]|`, ignoring the operands' signs. -/
def Obligations.CmpmOrdersMagnitudes : Prop :=
  ∀ (ra rb : Reg) (s : State),
    decode (BitVec.ofNat 32 (0x08 * 2 ^ 26 + ra * 2 ^ 18 + rb * 2 ^ 14)) = .ok (.cmpm ra rb) ∧
    ∃ t, exec (.cmpm ra rb) s = .next t ∧
      t.sr.toNat = (if s.mag ra < s.mag rb then 2 ^ s.cfg.width - 1 else if s.mag rb < s.mag ra then 1 else 0) ∧
      SrFrame s t

/-- R152: EQ is integer equality. -/
def Obligations.EqAnswersEquality : Prop :=
  ∀ (ra rb : Reg) (s : State),
    decode (BitVec.ofNat 32 (0x09 * 2 ^ 26 + ra * 2 ^ 18 + rb * 2 ^ 14)) = .ok (.eq ra rb) ∧
    ∃ t, exec (.eq ra rb) s = .next t ∧ t.sr.toNat = (if s.num ra = s.num rb then 1 else 0) ∧ SrFrame s t

/-- R153: ISZ answers whether the value is 0. -/
def Obligations.IszAnswersZero : Prop :=
  ∀ (ra : Reg) (s : State),
    decode (BitVec.ofNat 32 (0x0A * 2 ^ 26 + ra * 2 ^ 18)) = .ok (.isz ra) ∧
    ∃ t, exec (.isz ra) s = .next t ∧ t.sr.toNat = (if s.num ra = 0 then 1 else 0) ∧ SrFrame s t

/-- R154: ISODD answers the lowest bit of the magnitude. -/
def Obligations.IsoddAnswersLowestBit : Prop :=
  ∀ (ra : Reg) (s : State),
    decode (BitVec.ofNat 32 (0x0B * 2 ^ 26 + ra * 2 ^ 18)) = .ok (.isodd ra) ∧
    ∃ t, exec (.isodd ra) s = .next t ∧ t.sr.toNat = s.mag ra % 2 ∧ SrFrame s t

/-- R155: ISNEG answers whether the value is negative. -/
def Obligations.IsnegAnswersSign : Prop :=
  ∀ (ra : Reg) (s : State),
    decode (BitVec.ofNat 32 (0x0C * 2 ^ 26 + ra * 2 ^ 18)) = .ok (.isneg ra) ∧
    ∃ t, exec (.isneg ra) s = .next t ∧ t.sr.toNat = (if s.num ra < 0 then 1 else 0) ∧ SrFrame s t

/-! ## Additive (43_additive.md) -/

/-- R172: ADD writes the exact sum, at most one limb longer than its operands, or raises CAPACITY, which takes two operands of one
sign and one of them with CAP limbs. -/
def Obligations.AddWritesTheExactSum : Prop :=
  ∀ (rd ra rb : Reg) (s : State),
    decode (BitVec.ofNat 32 (0x10 * 2 ^ 26 + rd * 2 ^ 22 + ra * 2 ^ 18 + rb * 2 ^ 14)) = .ok (.add rd ra rb) ∧
    (s.cfg.cap < limbs s.cfg (s.num ra + s.num rb).natAbs → Raises (.add rd ra rb) .capacity s) ∧
    (limbs s.cfg (s.num ra + s.num rb).natAbs ≤ s.cfg.cap →
      ∃ t, exec (.add rd ra rb) s = .next t ∧ t.num rd = s.num ra + s.num rb ∧
        t.len rd ≤ max (s.len ra) (s.len rb) + 1 ∧ RegFrame [rd] s t) ∧
    (s.Inv → s.cfg.cap < limbs s.cfg (s.num ra + s.num rb).natAbs →
      (s.num ra < 0 ↔ s.num rb < 0) ∧ (s.len ra = s.cfg.cap ∨ s.len rb = s.cfg.cap))

/-- R173: SUB writes the exact difference, or raises CAPACITY, which takes operands of opposite signs. -/
def Obligations.SubWritesTheExactDifference : Prop :=
  ∀ (rd ra rb : Reg) (s : State),
    decode (BitVec.ofNat 32 (0x11 * 2 ^ 26 + rd * 2 ^ 22 + ra * 2 ^ 18 + rb * 2 ^ 14)) = .ok (.sub rd ra rb) ∧
    (s.cfg.cap < limbs s.cfg (s.num ra - s.num rb).natAbs → Raises (.sub rd ra rb) .capacity s) ∧
    (limbs s.cfg (s.num ra - s.num rb).natAbs ≤ s.cfg.cap →
      ∃ t, exec (.sub rd ra rb) s = .next t ∧ t.num rd = s.num ra - s.num rb ∧ RegFrame [rd] s t) ∧
    (s.Inv → s.cfg.cap < limbs s.cfg (s.num ra - s.num rb).natAbs → (s.num ra < 0 ↔ ¬s.num rb < 0))

/-- R174: ADD and SUB are exact, and `subtract(add(a,b), b) == a` whenever the ADD does not fault. The registers hold values within capacity (`State.Inv`),
and the sum does not overwrite `b`. -/
def Obligations.SubUndoesAdd : Prop :=
  ∀ (rd re ra rb : Reg) (s : State),
    s.Inv → rd ≠ rb → limbs s.cfg (s.num ra + s.num rb).natAbs ≤ s.cfg.cap →
    ∃ t u, exec (.add rd ra rb) s = .next t ∧ t.num rd = s.num ra + s.num rb ∧
      exec (.sub re rd rb) t = .next u ∧ u.num re = t.num rd - t.num rb ∧ u.num re = s.num ra ∧ u.fault = s.fault

/-- R175: the ripple adder and subtractor on the operands' limbs form the sum and the difference of the magnitudes. -/
def Obligations.LimbAdderComputesTheSum : Prop :=
  ∀ (c : Config) (a b n : Nat), n = max (limbs c a) (limbs c b) →
    limbValue c (rippleAdd c (limbList c a n) (limbList c b n) 0) = a + b ∧
    (rippleAdd c (limbList c a n) (limbList c b n) 0).length ≤ n + 1 ∧
    (b ≤ a → limbValue c (rippleSub c (limbList c a n) (limbList c b n) 0) = a - b ∧
      trimLimbs (rippleSub c (limbList c a n) (limbList c b n) 0) = limbList c (a - b) (limbs c (a - b)))

/-- R171: no command raises MAG_SUB. -/
def Obligations.NoCommandRaisesMagSub : Prop :=
  ∀ (i : Instr) (s t : State), exec i s = .next t → s.fault ≠ some .magSub → t.fault ≠ some .magSub

/-! ## Multiplicative (44_multiplicative.md) -/

/-- R190: MUL writes the product when an operand is 0 or the limb counts sum to at most CAP, else raises CAPACITY. -/
def Obligations.MulWritesTheProduct : Prop :=
  ∀ (rd ra rb : Reg) (s : State),
    decode (BitVec.ofNat 32 (0x18 * 2 ^ 26 + rd * 2 ^ 22 + ra * 2 ^ 18 + rb * 2 ^ 14)) = .ok (.mul rd ra rb) ∧
    (s.num ra ≠ 0 → s.num rb ≠ 0 → s.cfg.cap < s.len ra + s.len rb → Raises (.mul rd ra rb) .capacity s) ∧
    (s.num ra = 0 ∨ s.num rb = 0 ∨ s.len ra + s.len rb ≤ s.cfg.cap →
      ∃ t, exec (.mul rd ra rb) s = .next t ∧ t.num rd = s.num ra * s.num rb ∧ RegFrame [rd] s t)

/-- R191: the limb count of a product, and the schoolbook sum of limb products. -/
def Obligations.ProductLimbCount : Prop :=
  ∀ (c : Config) (a b : Nat), a ≠ 0 → b ≠ 0 →
    (limbs c (a * b) = limbs c a + limbs c b - 1 ∨ limbs c (a * b) = limbs c a + limbs c b) ∧
    a * b = ∑ i ∈ Finset.range (limbs c a), ∑ j ∈ Finset.range (limbs c b),
      limbOf c a i * limbOf c b j * 2 ^ (c.width * (i + j))

/-- R192, R193: DIV writes the quotient rounded toward zero, or raises DIV_ZERO. -/
def Obligations.DivWritesTheTruncatedQuotient : Prop :=
  ∀ (rd ra rb : Reg) (s : State),
    decode (BitVec.ofNat 32 (0x19 * 2 ^ 26 + rd * 2 ^ 22 + ra * 2 ^ 18 + rb * 2 ^ 14)) = .ok (.div rd ra rb) ∧
    (s.num rb = 0 → Raises (.div rd ra rb) .divZero s) ∧
    (s.num rb ≠ 0 →
      ∃ t, exec (.div rd ra rb) s = .next t ∧ t.num rd = (s.num ra).tdiv (s.num rb) ∧ RegFrame [rd] s t)

/-- R193: `divide(multiply(a,b), b) == a` whenever the MUL does not fault; the product does not overwrite `b`. -/
def Obligations.DivUndoesMul : Prop :=
  ∀ (rd re ra rb : Reg) (s : State),
    rd ≠ rb → s.num rb ≠ 0 → (s.num ra = 0 ∨ s.len ra + s.len rb ≤ s.cfg.cap) →
    ∃ t u, exec (.mul rd ra rb) s = .next t ∧ exec (.div re rd rb) t = .next u ∧ u.num re = s.num ra ∧
      u.fault = s.fault

/-- R194: MODMUL writes the canonical residue of the product; MOD_INVALID before CAPACITY. -/
def Obligations.ModmulWritesTheResidue : Prop :=
  ∀ (rd ra rb rc : Reg) (s : State),
    decode (BitVec.ofNat 32 (0x1A * 2 ^ 26 + rd * 2 ^ 22 + ra * 2 ^ 18 + rb * 2 ^ 14 + rc * 2 ^ 10)) =
      .ok (.modmul rd ra rb rc) ∧
    (s.num rc ≤ 0 ∨ s.cfg.maxLimbs < s.len rc → Raises (.modmul rd ra rb rc) .modInvalid s) ∧
    (0 < s.num rc → s.len rc ≤ s.cfg.maxLimbs → s.num ra ≠ 0 → s.num rb ≠ 0 → s.cfg.cap < s.len ra + s.len rb →
      Raises (.modmul rd ra rb rc) .capacity s) ∧
    (0 < s.num rc → s.len rc ≤ s.cfg.maxLimbs → (s.num ra = 0 ∨ s.num rb = 0 ∨ s.len ra + s.len rb ≤ s.cfg.cap) →
      ∃ t, exec (.modmul rd ra rb rc) s = .next t ∧ t.num rd = s.num ra * s.num rb % s.num rc ∧
        0 ≤ t.num rd ∧ t.num rd < s.num rc ∧ RegFrame [rd] s t)

/-! ## Modular (45_modular.md) -/

/-- R210, R211: MODRED writes the unique `t` in `[0, m)` congruent to `r`. -/
def Obligations.ModredWritesTheResidue : Prop :=
  ∀ (rd rc : Reg) (s : State),
    decode (BitVec.ofNat 32 (0x20 * 2 ^ 26 + rd * 2 ^ 22 + rc * 2 ^ 10)) = .ok (.modred rd rc) ∧
    (s.num rc ≤ 0 ∨ s.cfg.maxLimbs < s.len rc → Raises (.modred rd rc) .modInvalid s) ∧
    (0 < s.num rc → s.len rc ≤ s.cfg.maxLimbs →
      ∃ t, exec (.modred rd rc) s = .next t ∧ 0 ≤ t.num rd ∧ t.num rd < s.num rc ∧
        t.num rd ≡ s.num rd [ZMOD s.num rc] ∧ RegFrame [rd] s t)

/-- R213: MODINV writes the inverse of `|a|` modulo `|m|` in `[1, |m|)` with the XOR of the signs; for `|m| = 1` the magnitude is
0 or 1, a draw. -/
def Obligations.ModinvWritesTheInverse : Prop :=
  ∀ (rd ra rc : Reg) (s : State),
    decode (BitVec.ofNat 32 (0x21 * 2 ^ 26 + rd * 2 ^ 22 + ra * 2 ^ 18 + rc * 2 ^ 10)) = .ok (.modinv rd ra rc) ∧
    (s.num rc = 0 ∨ s.cfg.maxLimbs < s.len rc → Raises (.modinv rd ra rc) .modInvalid s) ∧
    (s.num rc ≠ 0 → s.len rc ≤ s.cfg.maxLimbs → Nat.gcd (s.mag ra) (s.mag rc) ≠ 1 →
      Raises (.modinv rd ra rc) .notInvertible s) ∧
    (s.num rc ≠ 0 → s.len rc ≤ s.cfg.maxLimbs → Nat.gcd (s.mag ra) (s.mag rc) = 1 →
      ∃ t u, exec (.modinv rd ra rc) s = .next t ∧
        (if s.mag rc = 1 then u = 0 ∨ u = 1 else 1 ≤ u ∧ u < s.mag rc ∧ s.mag ra * u ≡ 1 [MOD s.mag rc]) ∧
        t.num rd = (if (s.num ra < 0 ↔ s.num rc < 0) then (u : Int) else -(u : Int)) ∧ RegFrame [rd] s t)

/-- R214: for `m > 0` the result times `a` is 1 modulo `m`, and MODMUL by it gives 1 when `m > 1`; for `m < 0` it is -1. The
result does not overwrite an operand of the MODMUL, and the MODMUL does not fault CAPACITY. -/
def Obligations.InverseLaw : Prop :=
  ∀ (rd re ra rc : Reg) (s : State),
    s.num rc ≠ 0 → s.len rc ≤ s.cfg.maxLimbs → Nat.gcd (s.mag ra) (s.mag rc) = 1 →
    ∃ t, exec (.modinv rd ra rc) s = .next t ∧
      (0 < s.num rc → s.num ra * t.num rd ≡ 1 [ZMOD s.num rc]) ∧
      (s.num rc < 0 → s.num ra * t.num rd ≡ -1 [ZMOD s.num rc]) ∧
      (1 < s.num rc → s.num ra * t.num rd % s.num rc = 1) ∧
      (1 < s.num rc → rd ≠ ra → rd ≠ rc → s.len ra + t.len rd ≤ s.cfg.cap →
        ∃ u, exec (.modmul re ra rd rc) t = .next u ∧ u.num re = 1 ∧ u.fault = s.fault)

/-! ## Bits (46_bits.md) -/

/-- R230: BLEN answers the least `k` with `|N[ra]| < 2^k`, for a register within capacity. -/
def Obligations.BlenAnswersTheBitLength : Prop :=
  ∀ (ra : Reg) (s : State),
    decode (BitVec.ofNat 32 (0x28 * 2 ^ 26 + ra * 2 ^ 18)) = .ok (.blen ra) ∧
    (FitsRegister s.cfg (s.mag ra) →
      ∃ t, exec (.blen ra) s = .next t ∧ (∀ k, t.sr.toNat ≤ k ↔ s.mag ra < 2 ^ k) ∧ SrFrame s t)

/-- R231: GETBIT answers bit `pos` of the magnitude, 0 beyond the represented limbs. -/
def Obligations.GetbitAnswersTheBit : Prop :=
  ∀ (ra : Reg) (pos : Nat) (s : State),
    (pos < 16384 → decode (BitVec.ofNat 32 (0x29 * 2 ^ 26 + ra * 2 ^ 18 + pos)) = .ok (.getbit ra pos)) ∧
    ∃ t, exec (.getbit ra pos) s = .next t ∧ t.sr.toNat = s.mag ra / 2 ^ pos % 2 ∧
      (s.cfg.width * s.len ra ≤ pos → t.sr.toNat = 0) ∧ SrFrame s t

/-- R232: GETBITS answers bits `off` to `off + cnt - 1` of the magnitude, or raises BIT_COUNT. -/
def Obligations.GetbitsAnswersTheField : Prop :=
  ∀ (ra : Reg) (off cnt : Nat) (s : State),
    (off < 2048 → cnt < 128 →
      decode (BitVec.ofNat 32 (0x2A * 2 ^ 26 + ra * 2 ^ 18 + cnt * 2 ^ 11 + off)) = .ok (.getbits ra off cnt)) ∧
    (s.cfg.width < cnt → Raises (.getbits ra off cnt) .bitCount s) ∧
    (cnt ≤ s.cfg.width →
      ∃ t, exec (.getbits ra off cnt) s = .next t ∧ t.sr.toNat = s.mag ra / 2 ^ off % 2 ^ cnt ∧ SrFrame s t)

/-- R233: SHR shifts the magnitude, keeps the sign, and answers the bits shifted out; or raises SHIFT_RANGE. -/
def Obligations.ShrShiftsTheMagnitude : Prop :=
  ∀ (rd : Reg) (sh : Nat) (s : State),
    (sh < 16384 → decode (BitVec.ofNat 32 (0x2B * 2 ^ 26 + rd * 2 ^ 22 + sh)) = .ok (.shr rd sh)) ∧
    (s.cfg.width ≤ sh → Raises (.shr rd sh) .shiftRange s) ∧
    (sh < s.cfg.width →
      ∃ t, exec (.shr rd sh) s = .next t ∧ t.num rd = (s.num rd).tdiv (2 ^ sh) ∧ t.sr.toNat = s.mag rd % 2 ^ sh ∧
        t.ccnt = s.ccnt + 1 ∧ SameControl s t ∧ SameBuf s t ∧ SameRegsBut [rd] s t)

/-- R235: INC adds 1 to the magnitude, so a negative value moves away from zero; or raises CAPACITY, when the magnitude is
`2^(W*CAP) - 1`. -/
def Obligations.IncAddsToTheMagnitude : Prop :=
  ∀ (rd : Reg) (s : State),
    decode (BitVec.ofNat 32 (0x2C * 2 ^ 26 + rd * 2 ^ 22)) = .ok (.inc rd) ∧
    (s.cfg.cap < limbs s.cfg (s.mag rd + 1) → Raises (.inc rd) .capacity s) ∧
    (limbs s.cfg (s.mag rd + 1) ≤ s.cfg.cap →
      ∃ t, exec (.inc rd) s = .next t ∧ t.num rd = (if s.num rd < 0 then s.num rd - 1 else s.num rd + 1) ∧
        RegFrame [rd] s t) ∧
    (FitsRegister s.cfg (s.mag rd) →
      (s.cfg.cap < limbs s.cfg (s.mag rd + 1) ↔ s.mag rd = 2 ^ (s.cfg.width * s.cfg.cap) - 1))

/-- R236: NEG flips the sign; 0 stays 0. -/
def Obligations.NegFlipsTheSign : Prop :=
  ∀ (rd : Reg) (s : State),
    decode (BitVec.ofNat 32 (0x2D * 2 ^ 26 + rd * 2 ^ 22)) = .ok (.neg rd) ∧
    ∃ t, exec (.neg rd) s = .next t ∧ t.num rd = -s.num rd ∧ RegFrame [rd] s t

/-- R237, R238: SPLIT writes the low `p` bits and the rest, both with the original sign; SPLIT_ALIAS before SPLIT_POS. -/
def Obligations.SplitCutsTheMagnitude : Prop :=
  ∀ (rd rb ra : Reg) (p : Nat) (s : State),
    (p < 16384 →
      decode (BitVec.ofNat 32 (0x2E * 2 ^ 26 + rd * 2 ^ 22 + ra * 2 ^ 18 + rb * 2 ^ 14 + p)) = .ok (.split rd rb ra p)) ∧
    (rd = rb → Raises (.split rd rb ra p) .splitAlias s) ∧
    (rd ≠ rb → p = 0 → Raises (.split rd rb ra p) .splitPos s) ∧
    (rd ≠ rb → 0 < p →
      ∃ t, exec (.split rd rb ra p) s = .next t ∧
        t.num rd = (s.num ra).tmod (2 ^ p) ∧ t.num rb = (s.num ra).tdiv (2 ^ p) ∧
        t.num rd + t.num rb * 2 ^ p = s.num ra ∧ RegFrame [rd, rb] s t)

/-! ## The machine -/

/-- R45, R71: when the host's next access writes a legal word to CMD and FAULT is 0, the step performs that command, the access
taken from the port and nothing else around it. -/
def Obligations.StepRunsTheDecodedCommand : Prop :=
  ∀ (s : State) (w : Word32) (i : Instr) (rest : List HostAccess),
    s.fault = none → s.inbox = .write (s.cfg.hostBase + 0x000) 32 (w.setWidth 64) :: rest → decode w = .ok i →
    step s = exec i { s with inbox := rest }

/-- R100: a word that matches no row of the opcode table raises ILLEGAL_COMMAND with no other effect; a word that matches a row is
that row's command, and it matches one row only. -/
def Obligations.WordsMatchTheOpcodeTable : Prop :=
  (∀ (w : Word32) (i : Instr), decode w = .ok i → w &&& (rowOf i).1 = (rowOf i).2) ∧
  (∀ (w : Word32) (i : Instr), w &&& (rowOf i).1 = (rowOf i).2 → ∃ j, decode w = .ok j ∧ rowOf j = rowOf i) ∧
  (∀ (w : Word32) (i j : Instr),
    w &&& (rowOf i).1 = (rowOf i).2 → w &&& (rowOf j).1 = (rowOf j).2 → rowOf i = rowOf j) ∧
  (∀ (s : State) (w : Word32) (rest : List HostAccess),
    s.fault = none → s.inbox = .write (s.cfg.hostBase + 0x000) 32 (w.setWidth 64) :: rest →
    (∀ i, w &&& (rowOf i).1 ≠ (rowOf i).2) →
    step s = .next { s with inbox := rest, fault := some .illegalCommand, fcmd := w })

/-- R101: every word with a reserved opcode is illegal, and so is a word with an assigned opcode and a bit set in a field its
instruction does not use. -/
def Obligations.ReservedEncodingsAreIllegal : Prop :=
  ∀ w : Word32,
    (w.toNat / 2 ^ 26 ∈ [0x00, 0x0D, 0x0E, 0x0F, 0x12, 0x13, 0x14, 0x15, 0x16, 0x17, 0x1B, 0x1C, 0x1D, 0x1E, 0x1F, 0x22, 0x23,
      0x24, 0x25, 0x26, 0x27] ∨ 0x2F ≤ w.toNat / 2 ^ 26 → decode w = .error .reservedOpcode) ∧
    (∀ i, w.toNat / 2 ^ 26 = (rowOf i).2.toNat / 2 ^ 26 → w &&& (rowOf i).1 ≠ (rowOf i).2 →
      decode w = .error .unusedFieldNonzero)

/-- R270: a command word written while FAULT is 1 is discarded, legal or not: LOST is set and nothing else changes. Reads of the
window and writes of BUF still work. -/
def Obligations.FaultedCoreDiscards : Prop :=
  ∀ (s : State) (rest : List HostAccess), s.fault ≠ none →
    (∀ w : Word32, s.inbox = .write (s.cfg.hostBase + 0x000) 32 (w.setWidth 64) :: rest →
      step s = .next { s with inbox := rest, lost := true }) ∧
    (∀ (addr : Nat) (p : Port), portOf s.cfg addr = some p → s.inbox = .read addr (portWidth s.cfg p) :: rest →
      step s = .next { s with
        inbox := rest, replies := s.replies ++ [{ addr := addr, width := portWidth s.cfg p, data := s.portValue p }] }) ∧
    (∀ (k : Nat) (d : Word64), k < 256 → s.inbox = .write (s.cfg.hostBase + 0x100 + k) 8 d :: rest →
      ∃ t, step s = .next t ∧ t.readByte k = d.setWidth 8 ∧ (∀ a, a ≠ k → t.readByte a = s.readByte a) ∧
        t = { s with inbox := rest, buf := t.buf })

/-- From R44 and R290: a write to CTRL with bit 0 set resets the core (registers and every limb 0); with bit 0 clear it does nothing;
a read returns 0. Two clauses are the model's choice, not the spec's words: that each BUF byte reads
`Config.freeByte (s.bufEpoch + 1) a` (log entry 2; R290 says unspecified), and that the access is taken from `inbox` and what else
waits there and `replies` are kept (log entry 5). -/
def Obligations.CtrlResetsTheCore : Prop :=
  ∀ (s : State) (rest : List HostAccess),
    (∀ d : Word64, s.inbox = .write (s.cfg.hostBase + 0x00C) 32 d :: rest → d.getLsbD 0 = false →
      step s = .next { s with inbox := rest }) ∧
    (∀ d : Word64, s.inbox = .write (s.cfg.hostBase + 0x00C) 32 d :: rest → d.getLsbD 0 = true →
      ∃ t, step s = .next t ∧ (∀ r, t.num r = 0) ∧ (∀ r k, t.limb r k = 0) ∧ t.sr = 0 ∧ t.fault = none ∧ t.lost = false ∧
        t.status.toNat = s.cfg.width * 2 ^ 16 ∧ t.fcmd = 0 ∧ t.ccnt = 0 ∧
        (∀ a, t.readByte a = Config.freeByte (s.bufEpoch + 1) a) ∧ t.cfg = s.cfg ∧ t.inbox = rest ∧ t.replies = s.replies) ∧
    (s.inbox = .read (s.cfg.hostBase + 0x00C) 32 :: rest →
      step s = .next { s with
        inbox := rest, replies := s.replies ++ [{ addr := s.cfg.hostBase + 0x00C, width := 32, data := 0 }] })

/-- From R48: what power-on leaves, for every value of the parameters. That each BUF byte reads `Config.freeByte 0 a`, epoch 0 at
power-on, is the model's choice (log entry 2); R48 and R46 say only that it is unspecified. -/
def Obligations.PowerOnState : Prop :=
  ∀ c : Config,
    (∀ r, (State.powerOn c).num r = 0) ∧ (∀ r k, (State.powerOn c).limb r k = 0) ∧ (State.powerOn c).sr = 0 ∧
    (State.powerOn c).status.toNat = c.width * 2 ^ 16 ∧ (State.powerOn c).fcmd = 0 ∧ (State.powerOn c).ccnt = 0 ∧
    (∀ a, (State.powerOn c).readByte a = Config.freeByte 0 a)

/-- R42: the fields of STATUS. -/
def Obligations.StatusFields : Prop :=
  ∀ s : State,
    s.status.toNat / 2 ^ 24 = 0 ∧
    s.status.toNat / 2 ^ 16 % 2 ^ 8 = s.cfg.width ∧
    s.status.toNat / 2 ^ 8 % 2 ^ 8 =
      (match s.fault with
       | none => 0x00
       | some .illegalCommand => 0x01
       | some .bufRange => 0x02
       | some .bytesLen => 0x03
       | some .bytesFit => 0x04
       | some .hexLen => 0x05
       | some .hexFit => 0x06
       | some .capacity => 0x07
       | some .divZero => 0x08
       | some .modInvalid => 0x09
       | some .notInvertible => 0x0A
       | some .shiftRange => 0x0B
       | some .bitCount => 0x0C
       | some .splitPos => 0x0D
       | some .splitAlias => 0x0E
       | some .magSub => 0x0F) ∧
    s.status.toNat / 2 ^ 2 % 2 ^ 6 = 0 ∧
    s.status.toNat / 2 % 2 = (if s.lost then 1 else 0) ∧
    s.status.toNat % 2 = (if s.fault = none then 0 else 1)

/-- R66, R67: each register of the window read at its width, with no side effect; CMD and CTRL read 0. -/
def Obligations.HostReadsTheWindow : Prop :=
  ∀ (s : State) (offset width : Nat) (rest : List HostAccess) (data : Word64),
    s.inbox = .read (s.cfg.hostBase + offset) width :: rest →
    ((offset = 0x000 ∧ width = 32 ∧ data = 0) ∨
      (offset = 0x004 ∧ width = 32 ∧ data = s.status.setWidth 64) ∨
      (offset = 0x008 ∧ width = 32 ∧ data = s.fcmd.setWidth 64) ∨
      (offset = 0x00C ∧ width = 32 ∧ data = 0) ∨
      (offset = 0x010 ∧ width = s.cfg.width ∧ data = s.sr) ∨
      (offset = 0x018 ∧ width = 64 ∧ data = s.ccnt) ∨
      (0x100 ≤ offset ∧ offset ≤ 0x1FF ∧ width = 8 ∧ data = (s.readByte (offset - 0x100)).setWidth 64)) →
    step s = .next { s with
      inbox := rest
      replies := s.replies ++ [{ addr := s.cfg.hostBase + offset, width := width, data := data }] }

/-- R66, R67, R71: a write to a read-only register is ignored; a write to BUF stores one byte, which the next read returns. -/
def Obligations.HostWritesTheWindow : Prop :=
  ∀ (s : State) (offset width : Nat) (d : Word64) (rest : List HostAccess),
    s.inbox = .write (s.cfg.hostBase + offset) width d :: rest →
    ((offset = 0x004 ∧ width = 32) ∨ (offset = 0x008 ∧ width = 32) ∨ (offset = 0x010 ∧ width = s.cfg.width) ∨
        (offset = 0x018 ∧ width = 64) → step s = .next { s with inbox := rest }) ∧
    (0x100 ≤ offset → offset ≤ 0x1FF → width = 8 →
      ∃ t, step s = .next t ∧ t.readByte (offset - 0x100) = d.setWidth 8 ∧
        (∀ a, a ≠ offset - 0x100 → t.readByte a = s.readByte a) ∧ t = { s with inbox := rest, buf := t.buf })

/-- R67: an access at any other offset, or at another width, is refused. -/
def Obligations.OtherAccessesAreRefused : Prop :=
  ∀ (s : State) (a : HostAccess) (addr width : Nat) (rest : List HostAccess),
    s.inbox = a :: rest → (a = .read addr width ∨ ∃ d, a = .write addr width d) →
    ((addr < s.cfg.hostBase ∨
        (addr - s.cfg.hostBase ∉ [0x000, 0x004, 0x008, 0x00C, 0x010, 0x018] ∧
          ¬(0x100 ≤ addr - s.cfg.hostBase ∧ addr - s.cfg.hostBase ≤ 0x1FF)) →
      step s = .refused (.hostOffset addr)) ∧
    (s.cfg.hostBase ≤ addr →
      ((addr - s.cfg.hostBase ∈ [0x000, 0x004, 0x008, 0x00C] ∧ width ≠ 32) ∨
        (addr - s.cfg.hostBase = 0x010 ∧ width ≠ s.cfg.width) ∨ (addr - s.cfg.hostBase = 0x018 ∧ width ≠ 64) ∨
        (0x100 ≤ addr - s.cfg.hostBase ∧ addr - s.cfg.hostBase ≤ 0x1FF ∧ width ≠ 8)) →
      step s = .refused (.hostWidth addr width)))

/-- R279: with no access waiting the core is idle with its state held. -/
def Obligations.IdleCoreHoldsItsState : Prop := ∀ s : State, s.inbox = [] → step s = .next s

/-- R267, R41: every command either completes and counts, or faults precisely; no command refuses or stops. -/
def Obligations.CommandsCompleteOrFaultPrecisely : Prop :=
  ∀ (i : Instr) (s : State),
    (∃ t, exec i s = .next t ∧ t.ccnt = s.ccnt + 1 ∧ SameControl s t) ∨
    (∃ f, exec i s = .next { s with fault := some f, fcmd := encode i })

/-- R37: no command other than CMPM, EQ, ISZ, ISODD, ISNEG, BLEN, GETBIT, GETBITS and SHR writes SR. -/
def Obligations.OnlyNineCommandsWriteSr : Prop :=
  ∀ (i : Instr) (s t : State), exec i s = .next t →
    (match i with
     | .cmpm _ _ => True
     | .eq _ _ => True
     | .isz _ => True
     | .isodd _ => True
     | .isneg _ => True
     | .blen _ => True
     | .getbit _ _ => True
     | .getbits _ _ _ => True
     | .shr _ _ => True
     | _ => t.sr = s.sr)

/-- R35: the number registers a command writes are its destinations. -/
def Obligations.OnlyDestinationsAreWritten : Prop :=
  ∀ (i : Instr) (s t : State), exec i s = .next t →
    SameRegsBut
      (match i with
       | .zero rd | .mov rd _ | .ldb rd _ _ | .ldw rd _ | .ldh rd _ _ | .add rd _ _ | .sub rd _ _ | .mul rd _ _ | .div rd _ _
       | .modmul rd _ _ _ | .modred rd _ | .modinv rd _ _ | .shr rd _ | .inc rd | .neg rd => [rd]
       | .split rd rb _ _ => [rd, rb]
       | .stb _ _ _ | .sth _ _ _ | .cmpm _ _ | .eq _ _ | .isz _ | .isodd _ | .isneg _ | .blen _ | .getbit _ _
       | .getbits _ _ _ => []) s t

/-- R77, R60: of all commands only STB and STH write BUF, and only inside their field. -/
def Obligations.OnlyStoresWriteBuf : Prop :=
  ∀ (i : Instr) (s t : State), exec i s = .next t →
    ∀ a, (match i with
      | .stb _ addr len | .sth _ addr len => a < addr ∨ addr + len ≤ a
      | _ => True) → t.readByte a = s.readByte a

/-- R42, R11: no step changes the machine's parameters, STATUS.WIDTH among them. -/
def Obligations.ParametersNeverChange : Prop :=
  ∀ s t : State, step s = .next t → t.cfg = s.cfg

/-- The invariant holds after power-on, whatever the parameters; `State.reset` is the power-on state of the parameters of log
entry 1. -/
def Obligations.InvHoldsAtReset : Prop :=
  State.reset = State.powerOn Config.standard ∧ State.reset.Inv ∧ ∀ c : Config, (State.powerOn c).Inv

/-- R32, R33, R37, R42, R43: every step keeps the invariant: registers within capacity, SR a `W`-bit word, BUF canonical, FCMD
and LOST 0 while FAULT is 0. -/
def Obligations.EveryStepKeepsInv : Prop :=
  ∀ s t : State, s.Inv → step s = .next t → t.Inv

/-- R271, R268, R269: from a faulted state, as long as the host's accesses hold no reset, every run keeps the first fault and its
command word, and every register, SR and CCNT. -/
def Obligations.FaultIsStickyUntilReset : Prop :=
  ∀ (k : Nat) (s t : State) (f : FaultCode),
    s.fault = some f → (∀ a ∈ s.inbox, ¬ IsResetWrite s.cfg a) → Host.Core.run core k s = .next t →
    t.fault = some f ∧ t.fcmd = s.fcmd ∧ t.regs = s.regs ∧ t.sr = s.sr ∧ t.ccnt = s.ccnt

/-- R41, R297: a sequence of command words runs to its end whatever it holds, and if FAULT is 0 after it, every command of it
was performed: CCNT has grown by their number. -/
def Obligations.CompletedCommandsAreCounted : Prop :=
  ∀ (ws : List Word32) (s : State),
    s.fault = none → s.inbox = ws.map (fun w => HostAccess.write s.cfg.hostBase 32 (w.setWidth 64)) →
    ∃ t, Host.Core.run core ws.length s = .next t ∧
      (t.fault = none → t.ccnt = s.ccnt + BitVec.ofNat 64 ws.length ∧ t.lost = s.lost)

/-- R34: the limbs above the limb counts are not observable: two states alike but for them step alike, in what every register,
SR, STATUS, FCMD, CCNT, BUF and the host's replies hold. -/
def Obligations.HiddenLimbsAreNotObservable : Prop :=
  ∀ s s' : State, SameVisible s s' →
    (∃ t t', step s = .next t ∧ step s' = .next t' ∧ SameVisible t t') ∨
    (∃ r, step s = .refused r ∧ step s' = .refused r)

/-! ## Encoding (30_encoding.md) -/

/-- R92-R99: decoding the word of a well-formed instruction gives it back, every operand at every value its field admits. -/
def Obligations.DecodeOfEncode : Prop := ∀ i : Instr, i.WellFormed = true → decode (encode i) = .ok i

/-- R100: a word decodes to at most one instruction, a well-formed one, and is that instruction's word. -/
def Obligations.EncodeOfDecode : Prop :=
  ∀ (w : Word32) (i : Instr), decode w = .ok i → i.WellFormed = true ∧ encode i = w

/-- R92-R95, R106: words written out from the formats, one of each family. -/
def Obligations.KnownWordsDecode : Prop :=
  decode 0x40C48000 = .ok (.add 3 1 2) ∧ decode 0x0C004008 = .ok (.ldb 0 0x10 2) ∧
  decode 0x20048000 = .ok (.cmpm 1 2) ∧ decode 0x68C49000 = .ok (.modmul 3 1 2 4) ∧
  decode 0x84C41000 = .ok (.modinv 3 1 4) ∧ decode 0xA8041801 = .ok (.getbits 1 1 3) ∧
  decode 0xB884C002 = .ok (.split 2 3 1 2)

/-- R104: an instruction's mnemonic and operands assemble to it. R105: a pseudo-instruction is its expansion. -/
def Obligations.AssemblerAgreesWithSyntax : Prop :=
  (∀ i : Instr, i.WellFormed = true → assemble (disassemble i).1 (disassemble i).2 = some i) ∧
  (∀ n ops i, assemble n ops = some i → i.WellFormed = true) ∧
  (∀ d a b c : Reg,
    assemble .clr [.reg d] = some (.zero d) ∧ assemble .cmp [.reg a, .reg b] = some (.cmpm a b) ∧
    assemble .dbl [.reg d, .reg a] = some (.add d a a) ∧ assemble .sqr [.reg d, .reg a] = some (.mul d a a) ∧
    assemble .modsqr [.reg d, .reg a, .reg c] = some (.modmul d a a c))
end

