-- ==== Sys2Proof/Laws/State.lean ====
section
/-! SUPPORT. What each update of the state leaves in each field, and what it does to the registers' values. -/

namespace Sys2Proof.Machine

@[simp] theorem State.setReg_cfg (s : State) (r : Reg) (x : NumReg) : (s.setReg r x).cfg = s.cfg := rfl
@[simp] theorem State.setReg_regs (s : State) (r : Reg) (x : NumReg) : (s.setReg r x).regs = s.regs.set r x := rfl
@[simp] theorem State.setReg_sr (s : State) (r : Reg) (x : NumReg) : (s.setReg r x).sr = s.sr := rfl
@[simp] theorem State.setReg_fault (s : State) (r : Reg) (x : NumReg) : (s.setReg r x).fault = s.fault := rfl
@[simp] theorem State.setReg_lost (s : State) (r : Reg) (x : NumReg) : (s.setReg r x).lost = s.lost := rfl
@[simp] theorem State.setReg_fcmd (s : State) (r : Reg) (x : NumReg) : (s.setReg r x).fcmd = s.fcmd := rfl
@[simp] theorem State.setReg_ccnt (s : State) (r : Reg) (x : NumReg) : (s.setReg r x).ccnt = s.ccnt := rfl
@[simp] theorem State.setReg_buf (s : State) (r : Reg) (x : NumReg) : (s.setReg r x).buf = s.buf := rfl
@[simp] theorem State.setReg_bufEpoch (s : State) (r : Reg) (x : NumReg) : (s.setReg r x).bufEpoch = s.bufEpoch := rfl
@[simp] theorem State.setReg_draws (s : State) (r : Reg) (x : NumReg) : (s.setReg r x).draws = s.draws := rfl
@[simp] theorem State.setReg_inbox (s : State) (r : Reg) (x : NumReg) : (s.setReg r x).inbox = s.inbox := rfl
@[simp] theorem State.setReg_replies (s : State) (r : Reg) (x : NumReg) : (s.setReg r x).replies = s.replies := rfl

@[simp] theorem State.nextDraw_cfg (s : State) : (s.nextDraw).cfg = s.cfg := rfl
@[simp] theorem State.nextDraw_regs (s : State) : (s.nextDraw).regs = s.regs := rfl
@[simp] theorem State.nextDraw_sr (s : State) : (s.nextDraw).sr = s.sr := rfl
@[simp] theorem State.nextDraw_fault (s : State) : (s.nextDraw).fault = s.fault := rfl
@[simp] theorem State.nextDraw_lost (s : State) : (s.nextDraw).lost = s.lost := rfl
@[simp] theorem State.nextDraw_fcmd (s : State) : (s.nextDraw).fcmd = s.fcmd := rfl
@[simp] theorem State.nextDraw_ccnt (s : State) : (s.nextDraw).ccnt = s.ccnt := rfl
@[simp] theorem State.nextDraw_buf (s : State) : (s.nextDraw).buf = s.buf := rfl
@[simp] theorem State.nextDraw_bufEpoch (s : State) : (s.nextDraw).bufEpoch = s.bufEpoch := rfl
@[simp] theorem State.nextDraw_draws (s : State) : (s.nextDraw).draws = s.draws + 1 := rfl
@[simp] theorem State.nextDraw_inbox (s : State) : (s.nextDraw).inbox = s.inbox := rfl
@[simp] theorem State.nextDraw_replies (s : State) : (s.nextDraw).replies = s.replies := rfl

@[simp] theorem State.writeNum_cfg (s : State) (r : Reg) (v : Int) : (s.writeNum r v).cfg = s.cfg := rfl
@[simp] theorem State.writeNum_regs (s : State) (r : Reg) (v : Int) : (s.writeNum r v).regs = s.regs.set r { val := v, tail := .drawn s.draws } := rfl
@[simp] theorem State.writeNum_sr (s : State) (r : Reg) (v : Int) : (s.writeNum r v).sr = s.sr := rfl
@[simp] theorem State.writeNum_fault (s : State) (r : Reg) (v : Int) : (s.writeNum r v).fault = s.fault := rfl
@[simp] theorem State.writeNum_lost (s : State) (r : Reg) (v : Int) : (s.writeNum r v).lost = s.lost := rfl
@[simp] theorem State.writeNum_fcmd (s : State) (r : Reg) (v : Int) : (s.writeNum r v).fcmd = s.fcmd := rfl
@[simp] theorem State.writeNum_ccnt (s : State) (r : Reg) (v : Int) : (s.writeNum r v).ccnt = s.ccnt := rfl
@[simp] theorem State.writeNum_buf (s : State) (r : Reg) (v : Int) : (s.writeNum r v).buf = s.buf := rfl
@[simp] theorem State.writeNum_bufEpoch (s : State) (r : Reg) (v : Int) : (s.writeNum r v).bufEpoch = s.bufEpoch := rfl
@[simp] theorem State.writeNum_draws (s : State) (r : Reg) (v : Int) : (s.writeNum r v).draws = s.draws + 1 := rfl
@[simp] theorem State.writeNum_inbox (s : State) (r : Reg) (v : Int) : (s.writeNum r v).inbox = s.inbox := rfl
@[simp] theorem State.writeNum_replies (s : State) (r : Reg) (v : Int) : (s.writeNum r v).replies = s.replies := rfl

@[simp] theorem State.zeroize_cfg (s : State) (r : Reg) : (s.zeroize r).cfg = s.cfg := rfl
@[simp] theorem State.zeroize_regs (s : State) (r : Reg) : (s.zeroize r).regs = s.regs.set r NumReg.cleared := rfl
@[simp] theorem State.zeroize_sr (s : State) (r : Reg) : (s.zeroize r).sr = s.sr := rfl
@[simp] theorem State.zeroize_fault (s : State) (r : Reg) : (s.zeroize r).fault = s.fault := rfl
@[simp] theorem State.zeroize_lost (s : State) (r : Reg) : (s.zeroize r).lost = s.lost := rfl
@[simp] theorem State.zeroize_fcmd (s : State) (r : Reg) : (s.zeroize r).fcmd = s.fcmd := rfl
@[simp] theorem State.zeroize_ccnt (s : State) (r : Reg) : (s.zeroize r).ccnt = s.ccnt := rfl
@[simp] theorem State.zeroize_buf (s : State) (r : Reg) : (s.zeroize r).buf = s.buf := rfl
@[simp] theorem State.zeroize_bufEpoch (s : State) (r : Reg) : (s.zeroize r).bufEpoch = s.bufEpoch := rfl
@[simp] theorem State.zeroize_draws (s : State) (r : Reg) : (s.zeroize r).draws = s.draws := rfl
@[simp] theorem State.zeroize_inbox (s : State) (r : Reg) : (s.zeroize r).inbox = s.inbox := rfl
@[simp] theorem State.zeroize_replies (s : State) (r : Reg) : (s.zeroize r).replies = s.replies := rfl

@[simp] theorem State.setSr_cfg (s : State) (v : Word64) : (s.setSr v).cfg = s.cfg := rfl
@[simp] theorem State.setSr_regs (s : State) (v : Word64) : (s.setSr v).regs = s.regs := rfl
@[simp] theorem State.setSr_sr (s : State) (v : Word64) : (s.setSr v).sr = v := rfl
@[simp] theorem State.setSr_fault (s : State) (v : Word64) : (s.setSr v).fault = s.fault := rfl
@[simp] theorem State.setSr_lost (s : State) (v : Word64) : (s.setSr v).lost = s.lost := rfl
@[simp] theorem State.setSr_fcmd (s : State) (v : Word64) : (s.setSr v).fcmd = s.fcmd := rfl
@[simp] theorem State.setSr_ccnt (s : State) (v : Word64) : (s.setSr v).ccnt = s.ccnt := rfl
@[simp] theorem State.setSr_buf (s : State) (v : Word64) : (s.setSr v).buf = s.buf := rfl
@[simp] theorem State.setSr_bufEpoch (s : State) (v : Word64) : (s.setSr v).bufEpoch = s.bufEpoch := rfl
@[simp] theorem State.setSr_draws (s : State) (v : Word64) : (s.setSr v).draws = s.draws := rfl
@[simp] theorem State.setSr_inbox (s : State) (v : Word64) : (s.setSr v).inbox = s.inbox := rfl
@[simp] theorem State.setSr_replies (s : State) (v : Word64) : (s.setSr v).replies = s.replies := rfl

@[simp] theorem State.writeByte_cfg (s : State) (a : Nat) (b : Byte) : (s.writeByte a b).cfg = s.cfg := rfl
@[simp] theorem State.writeByte_regs (s : State) (a : Nat) (b : Byte) : (s.writeByte a b).regs = s.regs := rfl
@[simp] theorem State.writeByte_sr (s : State) (a : Nat) (b : Byte) : (s.writeByte a b).sr = s.sr := rfl
@[simp] theorem State.writeByte_fault (s : State) (a : Nat) (b : Byte) : (s.writeByte a b).fault = s.fault := rfl
@[simp] theorem State.writeByte_lost (s : State) (a : Nat) (b : Byte) : (s.writeByte a b).lost = s.lost := rfl
@[simp] theorem State.writeByte_fcmd (s : State) (a : Nat) (b : Byte) : (s.writeByte a b).fcmd = s.fcmd := rfl
@[simp] theorem State.writeByte_ccnt (s : State) (a : Nat) (b : Byte) : (s.writeByte a b).ccnt = s.ccnt := rfl
@[simp] theorem State.writeByte_buf (s : State) (a : Nat) (b : Byte) : (s.writeByte a b).buf = s.buf.write a b := rfl
@[simp] theorem State.writeByte_bufEpoch (s : State) (a : Nat) (b : Byte) : (s.writeByte a b).bufEpoch = s.bufEpoch := rfl
@[simp] theorem State.writeByte_draws (s : State) (a : Nat) (b : Byte) : (s.writeByte a b).draws = s.draws := rfl
@[simp] theorem State.writeByte_inbox (s : State) (a : Nat) (b : Byte) : (s.writeByte a b).inbox = s.inbox := rfl
@[simp] theorem State.writeByte_replies (s : State) (a : Nat) (b : Byte) : (s.writeByte a b).replies = s.replies := rfl

@[simp] theorem State.count_cfg (s : State) : (s.count).cfg = s.cfg := rfl
@[simp] theorem State.count_regs (s : State) : (s.count).regs = s.regs := rfl
@[simp] theorem State.count_sr (s : State) : (s.count).sr = s.sr := rfl
@[simp] theorem State.count_fault (s : State) : (s.count).fault = s.fault := rfl
@[simp] theorem State.count_lost (s : State) : (s.count).lost = s.lost := rfl
@[simp] theorem State.count_fcmd (s : State) : (s.count).fcmd = s.fcmd := rfl
@[simp] theorem State.count_ccnt (s : State) : (s.count).ccnt = s.ccnt + 1 := rfl
@[simp] theorem State.count_buf (s : State) : (s.count).buf = s.buf := rfl
@[simp] theorem State.count_bufEpoch (s : State) : (s.count).bufEpoch = s.bufEpoch := rfl
@[simp] theorem State.count_draws (s : State) : (s.count).draws = s.draws := rfl
@[simp] theorem State.count_inbox (s : State) : (s.count).inbox = s.inbox := rfl
@[simp] theorem State.count_replies (s : State) : (s.count).replies = s.replies := rfl

@[simp] theorem State.enterFault_cfg (s : State) (f : FaultCode) (w : Word32) : (s.enterFault f w).cfg = s.cfg := rfl
@[simp] theorem State.enterFault_regs (s : State) (f : FaultCode) (w : Word32) : (s.enterFault f w).regs = s.regs := rfl
@[simp] theorem State.enterFault_sr (s : State) (f : FaultCode) (w : Word32) : (s.enterFault f w).sr = s.sr := rfl
@[simp] theorem State.enterFault_fault (s : State) (f : FaultCode) (w : Word32) : (s.enterFault f w).fault = some f := rfl
@[simp] theorem State.enterFault_lost (s : State) (f : FaultCode) (w : Word32) : (s.enterFault f w).lost = s.lost := rfl
@[simp] theorem State.enterFault_fcmd (s : State) (f : FaultCode) (w : Word32) : (s.enterFault f w).fcmd = w := rfl
@[simp] theorem State.enterFault_ccnt (s : State) (f : FaultCode) (w : Word32) : (s.enterFault f w).ccnt = s.ccnt := rfl
@[simp] theorem State.enterFault_buf (s : State) (f : FaultCode) (w : Word32) : (s.enterFault f w).buf = s.buf := rfl
@[simp] theorem State.enterFault_bufEpoch (s : State) (f : FaultCode) (w : Word32) : (s.enterFault f w).bufEpoch = s.bufEpoch := rfl
@[simp] theorem State.enterFault_draws (s : State) (f : FaultCode) (w : Word32) : (s.enterFault f w).draws = s.draws := rfl
@[simp] theorem State.enterFault_inbox (s : State) (f : FaultCode) (w : Word32) : (s.enterFault f w).inbox = s.inbox := rfl
@[simp] theorem State.enterFault_replies (s : State) (f : FaultCode) (w : Word32) : (s.enterFault f w).replies = s.replies := rfl

@[simp] theorem State.discard_cfg (s : State) : (s.discard).cfg = s.cfg := rfl
@[simp] theorem State.discard_regs (s : State) : (s.discard).regs = s.regs := rfl
@[simp] theorem State.discard_sr (s : State) : (s.discard).sr = s.sr := rfl
@[simp] theorem State.discard_fault (s : State) : (s.discard).fault = s.fault := rfl
@[simp] theorem State.discard_lost (s : State) : (s.discard).lost = true := rfl
@[simp] theorem State.discard_fcmd (s : State) : (s.discard).fcmd = s.fcmd := rfl
@[simp] theorem State.discard_ccnt (s : State) : (s.discard).ccnt = s.ccnt := rfl
@[simp] theorem State.discard_buf (s : State) : (s.discard).buf = s.buf := rfl
@[simp] theorem State.discard_bufEpoch (s : State) : (s.discard).bufEpoch = s.bufEpoch := rfl
@[simp] theorem State.discard_draws (s : State) : (s.discard).draws = s.draws := rfl
@[simp] theorem State.discard_inbox (s : State) : (s.discard).inbox = s.inbox := rfl
@[simp] theorem State.discard_replies (s : State) : (s.discard).replies = s.replies := rfl

@[simp] theorem State.hwReset_cfg (s : State) : (s.hwReset).cfg = s.cfg := rfl
@[simp] theorem State.hwReset_regs (s : State) : (s.hwReset).regs = Vector.replicate 16 NumReg.cleared := rfl
@[simp] theorem State.hwReset_sr (s : State) : (s.hwReset).sr = 0 := rfl
@[simp] theorem State.hwReset_fault (s : State) : (s.hwReset).fault = none := rfl
@[simp] theorem State.hwReset_lost (s : State) : (s.hwReset).lost = false := rfl
@[simp] theorem State.hwReset_fcmd (s : State) : (s.hwReset).fcmd = 0 := rfl
@[simp] theorem State.hwReset_ccnt (s : State) : (s.hwReset).ccnt = 0 := rfl
@[simp] theorem State.hwReset_buf (s : State) : (s.hwReset).buf = [] := rfl
@[simp] theorem State.hwReset_bufEpoch (s : State) : (s.hwReset).bufEpoch = s.bufEpoch + 1 := rfl
@[simp] theorem State.hwReset_draws (s : State) : (s.hwReset).draws = s.draws := rfl
@[simp] theorem State.hwReset_inbox (s : State) : (s.hwReset).inbox = s.inbox := rfl
@[simp] theorem State.hwReset_replies (s : State) : (s.hwReset).replies = s.replies := rfl

@[simp] theorem State.reply_cfg (s : State) (r : HostReply) : (s.reply r).cfg = s.cfg := rfl
@[simp] theorem State.reply_regs (s : State) (r : HostReply) : (s.reply r).regs = s.regs := rfl
@[simp] theorem State.reply_sr (s : State) (r : HostReply) : (s.reply r).sr = s.sr := rfl
@[simp] theorem State.reply_fault (s : State) (r : HostReply) : (s.reply r).fault = s.fault := rfl
@[simp] theorem State.reply_lost (s : State) (r : HostReply) : (s.reply r).lost = s.lost := rfl
@[simp] theorem State.reply_fcmd (s : State) (r : HostReply) : (s.reply r).fcmd = s.fcmd := rfl
@[simp] theorem State.reply_ccnt (s : State) (r : HostReply) : (s.reply r).ccnt = s.ccnt := rfl
@[simp] theorem State.reply_buf (s : State) (r : HostReply) : (s.reply r).buf = s.buf := rfl
@[simp] theorem State.reply_bufEpoch (s : State) (r : HostReply) : (s.reply r).bufEpoch = s.bufEpoch := rfl
@[simp] theorem State.reply_draws (s : State) (r : HostReply) : (s.reply r).draws = s.draws := rfl
@[simp] theorem State.reply_inbox (s : State) (r : HostReply) : (s.reply r).inbox = s.inbox := rfl
@[simp] theorem State.reply_replies (s : State) (r : HostReply) : (s.reply r).replies = s.replies ++ [r] := rfl

@[simp] theorem State.setInbox_cfg (s : State) (l : List HostAccess) : (s.setInbox l).cfg = s.cfg := rfl
@[simp] theorem State.setInbox_regs (s : State) (l : List HostAccess) : (s.setInbox l).regs = s.regs := rfl
@[simp] theorem State.setInbox_sr (s : State) (l : List HostAccess) : (s.setInbox l).sr = s.sr := rfl
@[simp] theorem State.setInbox_fault (s : State) (l : List HostAccess) : (s.setInbox l).fault = s.fault := rfl
@[simp] theorem State.setInbox_lost (s : State) (l : List HostAccess) : (s.setInbox l).lost = s.lost := rfl
@[simp] theorem State.setInbox_fcmd (s : State) (l : List HostAccess) : (s.setInbox l).fcmd = s.fcmd := rfl
@[simp] theorem State.setInbox_ccnt (s : State) (l : List HostAccess) : (s.setInbox l).ccnt = s.ccnt := rfl
@[simp] theorem State.setInbox_buf (s : State) (l : List HostAccess) : (s.setInbox l).buf = s.buf := rfl
@[simp] theorem State.setInbox_bufEpoch (s : State) (l : List HostAccess) : (s.setInbox l).bufEpoch = s.bufEpoch := rfl
@[simp] theorem State.setInbox_draws (s : State) (l : List HostAccess) : (s.setInbox l).draws = s.draws := rfl
@[simp] theorem State.setInbox_inbox (s : State) (l : List HostAccess) : (s.setInbox l).inbox = l := rfl
@[simp] theorem State.setInbox_replies (s : State) (l : List HostAccess) : (s.setInbox l).replies = s.replies := rfl

/-! ## Values of number registers -/

theorem State.num_eq (s : State) (r : Reg) : s.num r = s.regs[r].val := rfl

/-- Writing one entry of the register file changes that entry only. -/
theorem regs_set_get (v : Vector NumReg 16) (r q : Reg) (x : NumReg) :
    (v.set r x)[q] = if q = r then x else v[q] := by
  simp only [Fin.getElem_fin, Vector.getElem_set, Fin.ext_iff, eq_comm]

/-- Clearing every register leaves each one cleared. -/
theorem regs_replicate_get (x : NumReg) (q : Reg) : (Vector.replicate 16 x)[q] = x := by
  simp only [Fin.getElem_fin, Vector.getElem_replicate]

@[simp] theorem State.num_writeNum (s : State) (r q : Reg) (v : Int) :
    (s.writeNum r v).num q = if q = r then v else s.num q := by
  simp only [State.num, State.writeNum_regs, regs_set_get]
  split <;> rfl

@[simp] theorem State.num_zeroize (s : State) (r q : Reg) :
    (s.zeroize r).num q = if q = r then 0 else s.num q := by
  simp only [State.num, State.zeroize_regs, regs_set_get]
  split <;> rfl

@[simp] theorem State.num_setSr (s : State) (v : Word64) (q : Reg) : (s.setSr v).num q = s.num q := rfl
@[simp] theorem State.num_count (s : State) (q : Reg) : s.count.num q = s.num q := rfl
@[simp] theorem State.num_enterFault (s : State) (f : FaultCode) (w : Word32) (q : Reg) :
    (s.enterFault f w).num q = s.num q := rfl
@[simp] theorem State.num_writeByte (s : State) (a : Nat) (b : Byte) (q : Reg) : (s.writeByte a b).num q = s.num q := rfl
@[simp] theorem State.num_discard (s : State) (q : Reg) : s.discard.num q = s.num q := rfl
@[simp] theorem State.num_reply (s : State) (x : HostReply) (q : Reg) : (s.reply x).num q = s.num q := rfl
@[simp] theorem State.num_setInbox (s : State) (l : List HostAccess) (q : Reg) : (s.setInbox l).num q = s.num q := rfl
@[simp] theorem State.num_hwReset (s : State) (q : Reg) : s.hwReset.num q = 0 := by
  simp only [State.num, State.hwReset_regs, regs_replicate_get]
  rfl

end Sys2Proof.Machine
end

