-- ==== Sys2Proof/Laws/Memory.lean ====
section
/-! SUPPORT. The operand buffer: a read after a write, the canonical form kept by every write, and multi-byte transfers. -/

namespace Sys2Proof.Machine

/-- A read after a write gives the byte written at its address and leaves every other address alone. -/
theorem Memory.read?_write (m : Memory) (a a' : Nat) (b : Byte) :
    (Memory.write m a b).read? a' = if a' = a then some b else Memory.read? m a' := by
  induction m with
  | nil => simp only [Memory.write, Memory.read?, eq_comm]
  | cons e rest ih =>
    obtain ⟨k, v⟩ := e
    simp only [Memory.write]
    split
    · simp only [Memory.read?, eq_comm (a := a)]
    · split
      · subst_vars; simp only [Memory.read?]; split <;> simp_all [eq_comm]
      · simp only [Memory.read?, ih]; split <;> split <;> simp_all

/-- The addresses of a memory after a write: the old ones and the one written. -/
theorem Memory.mem_write {m : Memory} {a : Nat} {b : Byte} {x : Host.Cell} (h : x ∈ Memory.write m a b) :
    x = (a, b) ∨ x ∈ m := by
  induction m with
  | nil => simpa [Memory.write] using h
  | cons e rest ih =>
    obtain ⟨k, v⟩ := e
    simp only [Memory.write] at h
    split at h
    · simpa using h
    · split at h
      · rcases List.mem_cons.mp h with h | h
        · exact .inl h
        · exact .inr (List.mem_cons_of_mem _ h)
      · rcases List.mem_cons.mp h with h | h
        · exact .inr (h ▸ List.mem_cons_self)
        · exact (ih h).imp id (List.mem_cons_of_mem _)

/-- A write inside BUF keeps the canonical form. -/
theorem Memory.wf_write {m : Memory} (h : Memory.wf m) {a : Nat} (ha : a < 256) (b : Byte) :
    Memory.wf (Memory.write m a b) := by
  refine ⟨?_, fun x hx => ?_⟩
  · obtain ⟨hp, -⟩ := h
    induction m with
    | nil => exact List.pairwise_singleton _ _
    | cons e rest ih =>
      obtain ⟨k, v⟩ := e
      obtain ⟨hk, hr⟩ := List.pairwise_cons.mp hp
      simp only [Memory.write]
      split
      · rename_i hlt
        refine List.pairwise_cons.mpr ⟨fun x hx => ?_, hp⟩
        rcases List.mem_cons.mp hx with rfl | hx
        · exact hlt
        · exact lt_trans hlt (hk x hx)
      · split
        · subst_vars; exact List.pairwise_cons.mpr ⟨hk, hr⟩
        · refine List.pairwise_cons.mpr ⟨fun x hx => ?_, ih hr⟩
          rcases Memory.mem_write hx with rfl | hx
          · show k < a; omega
          · exact hk x hx
  · rcases Memory.mem_write hx with rfl | hx
    · exact ha
    · exact h.2 x hx

/-- The memory after reset is canonical. -/
theorem Memory.wf_nil : Memory.wf [] := ⟨List.Pairwise.nil, by simp⟩

/-- `BUF[a']` after a write of `BUF[a]`. -/
theorem State.readByte_writeByte (s : State) (a a' : Nat) (b : Byte) :
    (s.writeByte a b).readByte a' = if a' = a then b else s.readByte a' := by
  simp only [State.readByte, State.writeByte_buf, State.writeByte_bufEpoch, Memory.read?_write]
  split <;> rfl

/-- A transfer changes `buf` only. -/
theorem State.memWrite_eq (s : State) (addr : Nat) (bs : List Byte) :
    s.memWrite addr bs = { s with buf := (s.memWrite addr bs).buf } := by
  induction bs generalizing s addr with
  | nil => rfl
  | cons b bs ih => simp only [State.memWrite]; rw [ih]; rfl

@[simp] theorem State.memWrite_cfg (s : State) (a : Nat) (bs : List Byte) : (s.memWrite a bs).cfg = s.cfg := by
  rw [State.memWrite_eq]
@[simp] theorem State.memWrite_regs (s : State) (a : Nat) (bs : List Byte) : (s.memWrite a bs).regs = s.regs := by
  rw [State.memWrite_eq]
@[simp] theorem State.memWrite_sr (s : State) (a : Nat) (bs : List Byte) : (s.memWrite a bs).sr = s.sr := by
  rw [State.memWrite_eq]
@[simp] theorem State.memWrite_fault (s : State) (a : Nat) (bs : List Byte) : (s.memWrite a bs).fault = s.fault := by
  rw [State.memWrite_eq]
@[simp] theorem State.memWrite_lost (s : State) (a : Nat) (bs : List Byte) : (s.memWrite a bs).lost = s.lost := by
  rw [State.memWrite_eq]
@[simp] theorem State.memWrite_fcmd (s : State) (a : Nat) (bs : List Byte) : (s.memWrite a bs).fcmd = s.fcmd := by
  rw [State.memWrite_eq]
@[simp] theorem State.memWrite_ccnt (s : State) (a : Nat) (bs : List Byte) : (s.memWrite a bs).ccnt = s.ccnt := by
  rw [State.memWrite_eq]
@[simp] theorem State.memWrite_bufEpoch (s : State) (a : Nat) (bs : List Byte) :
    (s.memWrite a bs).bufEpoch = s.bufEpoch := by
  rw [State.memWrite_eq]
@[simp] theorem State.memWrite_draws (s : State) (a : Nat) (bs : List Byte) : (s.memWrite a bs).draws = s.draws := by
  rw [State.memWrite_eq]
@[simp] theorem State.memWrite_inbox (s : State) (a : Nat) (bs : List Byte) : (s.memWrite a bs).inbox = s.inbox := by
  rw [State.memWrite_eq]
@[simp] theorem State.memWrite_replies (s : State) (a : Nat) (bs : List Byte) :
    (s.memWrite a bs).replies = s.replies := by
  rw [State.memWrite_eq]
@[simp] theorem State.num_memWrite (s : State) (a : Nat) (bs : List Byte) (q : Reg) :
    (s.memWrite a bs).num q = s.num q := by
  simp only [State.num, State.memWrite_regs]

/-- A transfer inside BUF keeps the canonical form. -/
theorem State.wf_memWrite (s : State) (h : s.buf.wf) (addr : Nat) (bs : List Byte) (hb : addr + bs.length ≤ 256) :
    (s.memWrite addr bs).buf.wf := by
  induction bs generalizing s addr with
  | nil => exact h
  | cons b bs ih =>
    simp only [List.length_cons] at hb
    exact ih _ (Memory.wf_write h (by omega) b) _ (by omega)

/-- A byte after a transfer: the byte stored there, or the byte it held. -/
theorem State.readByte_memWrite (s : State) (addr : Nat) (bs : List Byte) (a : Nat) :
    (s.memWrite addr bs).readByte a =
      if addr ≤ a then (bs[a - addr]?).getD (s.readByte a) else s.readByte a := by
  induction bs generalizing s addr with
  | nil => simp [State.memWrite]
  | cons b bs ih =>
    simp only [State.memWrite]
    rw [ih, State.readByte_writeByte]
    rcases Nat.lt_trichotomy a addr with hlt | rfl | hgt
    · rw [if_neg (by omega), if_neg (by omega), if_neg (by omega)]
    · rw [if_neg (by omega), if_pos rfl, if_pos le_rfl]; simp
    · obtain ⟨k, rfl⟩ : ∃ k, a = addr + 1 + k := ⟨a - (addr + 1), by omega⟩
      rw [if_pos (by omega), if_neg (by omega), if_pos (by omega)]
      rw [show addr + 1 + k - addr = k + 1 by omega, show addr + 1 + k - (addr + 1) = k by omega]
      rfl

end Sys2Proof.Machine
end

