-- ==== Sys2Proof/Laws/Operands.lean ====
section
/-! SUPPORT. What the arithmetic of Machine/Operands.lean computes: limb counts, the comparator, signed values, the combinator,
the extended Euclid and digit strings. -/

namespace Sys2Proof.Machine

/-! ## Widths -/

theorem width_cases (c : Config) : c.width = 32 ∨ c.width = 64 := by
  rcases c with ⟨_ | _, _, _⟩ <;> simp [Config.width]

theorem width_pos (c : Config) : 0 < c.width := by rcases width_cases c with h | h <;> omega

/-- `W * MAX_LIMBS = 512` (00_scope.md R12). -/
theorem width_mul_maxLimbs (c : Config) : c.width * c.maxLimbs = 512 := by
  rcases width_cases c with h | h <;> simp [Config.maxLimbs, h]

/-- `W * CAP = 1024 + W` (00_scope.md R13). -/
theorem width_mul_cap (c : Config) : c.width * c.cap = 1024 + c.width := by
  have h := width_mul_maxLimbs c
  simp only [Config.cap, Nat.mul_add, Nat.mul_left_comm _ 2, h]
  omega

theorem maxLimbs_pos (c : Config) : 1 ≤ c.maxLimbs := by
  rcases width_cases c with h | h <;> simp [Config.maxLimbs, h]

theorem maxLimbs_le_cap (c : Config) : c.maxLimbs ≤ c.cap := by unfold Config.cap; omega

theorem cap_pos (c : Config) : 1 ≤ c.cap := by unfold Config.cap; omega

/-! ## Bit lengths and limb counts (00_scope.md R19) -/

/-- `bitlen x` is the least `n` with `x < 2^n`. -/
theorem bitlen_le_iff (x n : Nat) : bitlen x ≤ n ↔ x < 2 ^ n := by
  unfold bitlen
  split
  · simp_all
  · rw [Nat.add_one_le_iff, Nat.log2_lt ‹_›]

theorem limbs_pos (c : Config) (x : Nat) : 1 ≤ limbs c x := Nat.le_max_left _ _

/-- `x` fits in `n` limbs exactly when it is below `2^(W*n)`. -/
theorem limbs_le_iff (c : Config) (x n : Nat) (hn : 1 ≤ n) : limbs c x ≤ n ↔ x < 2 ^ (c.width * n) := by
  have hw := width_pos c
  rw [← bitlen_le_iff, limbs, max_le_iff, Nat.div_le_iff_le_mul hw]
  constructor
  · rintro ⟨-, h⟩; rw [Nat.mul_comm]; omega
  · intro h; refine ⟨hn, ?_⟩; rw [Nat.mul_comm] at h; omega

theorem lt_two_pow_limbs (c : Config) (x : Nat) : x < 2 ^ (c.width * limbs c x) :=
  (limbs_le_iff c x _ (limbs_pos c x)).mp le_rfl

/-- More limbs, larger magnitude. -/
theorem lt_of_limbs_lt (c : Config) {a b : Nat} (h : limbs c a < limbs c b) : a < b := by
  by_contra hba
  have := (limbs_le_iff c b _ (limbs_pos c a)).mpr (lt_of_le_of_lt (by omega) (lt_two_pow_limbs c a))
  omega

/-- A canonical magnitude that needs more than one limb fills its top limb. -/
theorem two_pow_le_of_limbs (c : Config) {x n : Nat} (hn : 1 ≤ n) (h : n < limbs c x) : 2 ^ (c.width * n) ≤ x := by
  by_contra hx
  have := (limbs_le_iff c x n hn).mpr (by omega)
  omega

/-! ## The limb view and the comparator (42_compare.md R150) -/

theorem limbOf_lt (c : Config) (m k : Nat) : limbOf c m k < 2 ^ c.width := Nat.mod_lt _ (by positivity)

/-- The `k + 1` lowest limbs are limb `k` above the `k` lowest. -/
theorem mod_succ_limb (c : Config) (m k : Nat) :
    m % 2 ^ (c.width * (k + 1)) = 2 ^ (c.width * k) * limbOf c m k + m % 2 ^ (c.width * k) := by
  rw [Nat.mul_add, Nat.mul_one, Nat.pow_add, Nat.mod_mul, limbOf, Nat.shiftRight_eq_div_pow, Nat.add_comm]

/-- Limbs compared from the top compare the numbers they form. -/
theorem compareLimbs_eq (c : Config) (a b n : Nat) :
    compareLimbs c a b n =
      if a % 2 ^ (c.width * n) < b % 2 ^ (c.width * n) then -1
      else if b % 2 ^ (c.width * n) < a % 2 ^ (c.width * n) then 1 else 0 := by
  induction n with
  | zero => simp [compareLimbs, Nat.mod_one]
  | succ n ih =>
    have key : ∀ x y : Nat, limbOf c x n < limbOf c y n →
        x % 2 ^ (c.width * (n + 1)) < y % 2 ^ (c.width * (n + 1)) := by
      intro x y h
      have hx : x % 2 ^ (c.width * n) < 2 ^ (c.width * n) := Nat.mod_lt _ (by positivity)
      have := Nat.mul_le_mul_left (2 ^ (c.width * n)) h
      rw [mod_succ_limb, mod_succ_limb, Nat.mul_add_one] at *
      omega
    simp only [compareLimbs]
    split
    · rename_i h; rw [if_pos (key _ _ h)]
    · split
      · rename_i h; rw [if_neg (not_lt.mpr (key _ _ h).le), if_pos (key _ _ h)]
      · rw [ih]
        have : limbOf c a n = limbOf c b n := by omega
        simp only [mod_succ_limb, this, Nat.add_lt_add_iff_left]

/-- The comparator orders magnitudes numerically (42_compare.md R151). -/
theorem compareMagnitude_eq (c : Config) (a b : Nat) :
    compareMagnitude c a b = if a < b then -1 else if b < a then 1 else 0 := by
  unfold compareMagnitude
  split
  · rename_i h; rw [if_pos (lt_of_limbs_lt c h)]
  · split
    · rename_i h; rw [if_neg (not_lt.mpr (lt_of_limbs_lt c h).le), if_pos (lt_of_limbs_lt c h)]
    · have hb := lt_two_pow_limbs c b
      rw [show limbs c b = limbs c a by omega] at hb
      rw [compareLimbs_eq, Nat.mod_eq_of_lt (lt_two_pow_limbs c a), Nat.mod_eq_of_lt hb]

/-! ## Signed values (00_scope.md R20, R21) -/

theorem mk_eq (s : Bool) (m : Nat) : mk s m = if s then -(m : Int) else m := by
  unfold mk; split <;> simp_all

@[simp] theorem natAbs_mk (s : Bool) (m : Nat) : (mk s m).natAbs = m := by rw [mk_eq]; split <;> simp

/-- A value is its sign and magnitude. -/
theorem mk_isNeg_natAbs (a : Int) : mk (isNeg a) a.natAbs = a := by
  rw [mk_eq]; simp only [isNeg, decide_eq_true_eq]; split <;> omega

theorem mk_not_isNeg_natAbs (a : Int) : mk (!isNeg a) a.natAbs = -a := by
  rw [mk_eq]; simp only [isNeg, Bool.not_eq_true', decide_eq_false_iff_not]; split <;> omega

theorem mk_xor (a b : Int) (m : Nat) : mk (isNeg a ^^ isNeg b) m = if (a < 0 ↔ b < 0) then (m : Int) else -m := by
  rw [mk_eq]; simp only [isNeg]; by_cases ha : a < 0 <;> by_cases hb : b < 0 <;> simp [ha, hb]

/-- The truncating quotient is round-toward-zero division. -/
theorem tquot_eq (a b : Int) : tquot a b = a.tdiv b := by
  rw [tquot, mk_xor]
  rcases a with a | a <;> rcases b with b | b <;> (simp [Int.tdiv, Int.negSucc_lt_zero]; try omega)

/-- The truncating remainder has the dividend's sign. -/
theorem trem_eq (a b : Int) : trem a b = a.tmod b := by
  rw [trem, mk_eq]
  rcases a with a | a <;> rcases b with b | b <;> simp [Int.tmod, isNeg]

theorem emod_eq (r : Int) {m : Int} (hm : 0 < m) : emod r m = r % m := by
  rw [emod, Int.fdiv_eq_ediv_of_nonneg _ hm.le, Int.emod_def]

/-- A shifted magnitude with the sign kept is truncating division by a power of two. -/
theorem mk_shiftRight (a : Int) (n : Nat) : mk (isNeg a) (a.natAbs >>> n) = a.tdiv (2 ^ n) := by
  have h := tquot_eq a (2 ^ n)
  have hp : (0 : Int) < 2 ^ n := by positivity
  rw [tquot, show isNeg (2 ^ n) = false by simp [isNeg, hp.le], Bool.xor_false, Int.natAbs_pow] at h
  rw [Nat.shiftRight_eq_div_pow]
  exact h

/-- A masked magnitude with the sign kept is the truncating remainder by a power of two. -/
theorem mk_mod_two_pow (a : Int) (n : Nat) : mk (isNeg a) (a.natAbs % 2 ^ n) = a.tmod (2 ^ n) := by
  have h := trem_eq a (2 ^ n)
  rw [trem, Int.natAbs_pow] at h
  exact h

/-! ## The operations -/

/-- What the capacity check lets through (10_state.md R33). -/
theorem fit_eq (c : Config) (s : Bool) (m : Nat) :
    fit c s m = if m < 2 ^ (c.width * c.cap) then .ok (mk s m) else .error .capacity := by
  unfold fit
  by_cases h : m < 2 ^ (c.width * c.cap)
  · rw [if_neg (not_lt.mpr ((limbs_le_iff c m _ (cap_pos c)).mpr h)), if_pos h]
  · rw [if_neg h, if_pos (by by_contra hc; exact h ((limbs_le_iff c m _ (cap_pos c)).mp (by omega)))]

/-- The combinator never breaks the minuend invariant, and forms `a` plus the second operand's magnitude under its effective
sign (43_additive.md R170, R171). -/
theorem combine_eq (c : Config) (a : Int) (sb : Bool) (b : Int) :
    ∃ s m, combine c a sb b = .ok (s, m) ∧ mk s m = a + mk sb b.natAbs := by
  have ha := mk_isNeg_natAbs a
  unfold combine magnitudeSub
  simp only [compareMagnitude_eq]
  generalize isNeg a = sa at *
  generalize a.natAbs = ma at *
  generalize b.natAbs = mb at *
  subst ha
  by_cases hs : sa = sb
  · subst hs
    refine ⟨sa, ma + mb, by rw [if_pos rfl], ?_⟩
    simp only [mk_eq]; split <;> push_cast <;> ring
  · obtain rfl : sb = !sa := by cases sa <;> cases sb <;> simp_all
    rcases Nat.lt_trichotomy ma mb with h | rfl | h
    · refine ⟨!sa, mb - ma, by simp [h, h.not_gt, Except.map], ?_⟩
      simp only [mk_eq]; cases sa <;> simp <;> omega
    · refine ⟨false, 0, by simp, ?_⟩
      simp only [mk_eq]; cases sa <;> simp
    · refine ⟨sa, ma - mb, by simp [h, h.not_gt, Except.map], ?_⟩
      simp only [mk_eq]; cases sa <;> simp <;> omega

/-- The signed combinator writes the exact sum with the effective second operand, or raises CAPACITY. -/
theorem addsub_eq (c : Config) (a : Int) (sb : Bool) (b : Int) :
    addsub c a sb b =
      if (a + mk sb b.natAbs).natAbs < 2 ^ (c.width * c.cap) then .ok (a + mk sb b.natAbs) else .error .capacity := by
  obtain ⟨s, m, h, hv⟩ := combine_eq c a sb b
  rw [addsub, h, ← hv, natAbs_mk]
  exact fit_eq c s m

/-- ADD's value (43_additive.md R172, R174). -/
theorem addsub_add (c : Config) (a b : Int) :
    addsub c a (isNeg b) b = if (a + b).natAbs < 2 ^ (c.width * c.cap) then .ok (a + b) else .error .capacity := by
  rw [addsub_eq, mk_isNeg_natAbs]

/-- SUB's value (43_additive.md R173, R174). -/
theorem addsub_sub (c : Config) (a b : Int) :
    addsub c a (decide (b ≠ 0) && !isNeg b) b =
      if (a - b).natAbs < 2 ^ (c.width * c.cap) then .ok (a - b) else .error .capacity := by
  have : mk (decide (b ≠ 0) && !isNeg b) b.natAbs = -b := by
    by_cases h : b = 0
    · subst h; rfl
    · simp only [ne_eq, h, not_false_eq_true, decide_true, Bool.true_and, mk_not_isNeg_natAbs]
  rw [addsub_eq, this, Int.sub_eq_add_neg]

/-- A product of magnitudes with the XOR of the signs is the product. -/
theorem mk_mul (a b : Int) : mk (isNeg a ^^ isNeg b) (a.natAbs * b.natAbs) = a * b := by
  conv_rhs => rw [← mk_isNeg_natAbs a, ← mk_isNeg_natAbs b]
  simp only [mk_eq]
  cases isNeg a <;> cases isNeg b <;> simp

/-- MUL's value (44_multiplicative.md R190). -/
theorem multiply_eq (c : Config) (a b : Int) :
    multiply c a b =
      if a = 0 ∨ b = 0 ∨ limbs c a.natAbs + limbs c b.natAbs ≤ c.cap then .ok (a * b) else .error .capacity := by
  unfold multiply
  by_cases h : a = 0 ∨ b = 0
  · rw [if_pos h, if_pos (by tauto)]; rcases h with rfl | rfl <;> simp
  · rw [if_neg h, mk_mul]
    by_cases hc : limbs c a.natAbs + limbs c b.natAbs ≤ c.cap
    · rw [if_neg (by omega), if_pos (by tauto)]
    · rw [if_pos (by omega), if_neg (by tauto)]

/-- DIV's value: both branches are the truncating quotient (44_multiplicative.md R193). -/
theorem divide_eq (c : Config) (a b : Int) :
    divide c a b = if b = 0 then .error .divZero else .ok (a.tdiv b) := by
  unfold divide
  split
  · rfl
  · split
    · rename_i h
      rw [← tquot_eq, tquot, Nat.div_eq_of_lt (lt_of_limbs_lt c h)]
      rfl
    · rw [tquot_eq]

/-- When a modulus is accepted (45_modular.md R210). -/
theorem modulusBad_eq_false (c : Config) (m : Int) :
    modulusBad c m = false ↔ 0 < m ∧ limbs c m.natAbs ≤ c.maxLimbs := by
  simp only [modulusBad, decide_eq_false_iff_not, not_or, not_le, not_lt]

/-- The remainder corrected into `[0, m)` is the canonical residue (45_modular.md R211). -/
theorem modReduce_eq (c : Config) (r m : Int) :
    modReduce c r m = if modulusBad c m then .error .modInvalid else .ok (r % m) := by
  unfold modReduce
  split
  · rfl
  · rename_i h
    obtain ⟨hm, -⟩ := (modulusBad_eq_false c m).mp (by simpa using h)
    simp only [trem_eq]
    have hd := Int.emod_nonneg r hm.ne'
    have hl := Int.emod_lt_of_pos r hm
    have ht : r.tmod m = _ := Int.tmod_eq_emod
    congr 1
    split at ht <;> split <;> omega

/-- MODMUL's value (44_multiplicative.md R194). -/
theorem modularMultiply_eq (c : Config) (a b m : Int) :
    modularMultiply c a b m =
      if modulusBad c m then .error .modInvalid
      else if a = 0 ∨ b = 0 ∨ limbs c a.natAbs + limbs c b.natAbs ≤ c.cap then .ok (a * b % m)
      else .error .capacity := by
  unfold modularMultiply
  split
  · rfl
  · rename_i h
    obtain ⟨hm, -⟩ := (modulusBad_eq_false c m).mp (by simpa using h)
    rw [multiply_eq]
    split
    · rename_i p hp; split at hp <;> simp_all [emod_eq]
    · rename_i f hf; split at hf <;> simp_all

/-! ## The extended Euclidean algorithm (45_modular.md R212, R213) -/

/-- With enough divisions the coefficient `s` of the first operand satisfies `a * s ≡ gcd (mod m)`. -/
theorem bezout_spec (a m : Int) (fuel r0 r1 : Nat) (s0 s1 : Int) (h0 : a * s0 ≡ r0 [ZMOD m]) (h1 : a * s1 ≡ r1 [ZMOD m])
    (hf : r1 < fuel) : a * bezout fuel r0 r1 s0 s1 ≡ (Nat.gcd r0 r1 : Nat) [ZMOD m] := by
  induction fuel generalizing r0 r1 s0 s1 with
  | zero => omega
  | succ n ih =>
    simp only [bezout]
    split
    · subst_vars; simpa using h0
    · rename_i hr
      have hlt := Nat.mod_lt r0 (Nat.pos_of_ne_zero hr)
      rw [Nat.gcd_comm, Nat.gcd_rec, Nat.gcd_comm]
      refine ih r1 (r0 % r1) s1 _ h1 ?_ (by omega)
      have hq : ((r0 % r1 : Nat) : Int) = r0 - (r0 / r1 : Nat) * r1 := by
        rw [Int.natCast_mod, Int.emod_def, Int.natCast_div]; ring
      rw [hq, mul_sub, mul_left_comm]
      exact h0.sub (h1.mul_left _)

/-- The normalized coefficient is the inverse in `[1, m)`. -/
theorem inverseOf_spec {a m : Nat} (hg : Nat.gcd a m = 1) (hm : 1 < m) :
    1 ≤ inverseOf a m ∧ inverseOf a m < m ∧ a * inverseOf a m ≡ 1 [MOD m] := by
  have hm0 : (0 : Int) < m := by omega
  have hs := bezout_spec a m (m + 1) a m 1 0 (by simp) (by simp [Int.ModEq]) (by omega)
  rw [hg] at hs
  have hn := Int.emod_nonneg (bezout (m + 1) a m 1 0) hm0.ne'
  have hl := Int.emod_lt_of_pos (bezout (m + 1) a m 1 0) hm0
  have hc : ((inverseOf a m : Nat) : Int) = bezout (m + 1) a m 1 0 % m := Int.toNat_of_nonneg hn
  have hmod : a * inverseOf a m ≡ 1 [MOD m] := by
    rw [← Int.natCast_modEq_iff]
    push_cast
    rw [hc]
    exact ((Int.mod_modEq _ _).mul_left _).trans (by simpa using hs)
  refine ⟨?_, by omega, hmod⟩
  by_contra h0
  rw [show inverseOf a m = 0 by omega, Nat.mul_zero] at hmod
  have := Nat.ModEq.symm hmod
  rw [Nat.modEq_zero_iff_dvd] at this
  have := Nat.le_of_dvd one_pos this
  omega

/-! ## Digit strings (20_memory.md R61, R63) -/

/-- A digit string is the sum of its digits times their weights. -/
theorem ofDigits_eq_sum (base : Nat) (f : Nat → Nat) (n : Nat) :
    ofDigits base ((List.range n).map f) = ∑ j ∈ Finset.range n, f j * base ^ (n - 1 - j) := by
  have gen : ∀ n acc, ((List.range n).map f).foldl (fun acc d => acc * base + d) acc =
      acc * base ^ n + ∑ j ∈ Finset.range n, f j * base ^ (n - 1 - j) := by
    intro n
    induction n with
    | zero => intro acc; simp
    | succ n ih =>
      intro acc
      rw [List.range_succ, List.map_append, List.foldl_append, ih, Finset.sum_range_succ]
      have : ∑ j ∈ Finset.range n, f j * base ^ (n + 1 - 1 - j)
          = (∑ j ∈ Finset.range n, f j * base ^ (n - 1 - j)) * base := by
        rw [Finset.sum_mul]
        refine Finset.sum_congr rfl fun j hj => ?_
        have := Finset.mem_range.mp hj
        rw [Nat.mul_assoc, ← Nat.pow_succ]; congr 2; omega
      rw [this]
      simp only [List.map_cons, List.map_nil, List.foldl_cons, List.foldl_nil, Nat.add_sub_cancel, Nat.sub_self, pow_zero]
      ring
  simpa [ofDigits] using gen n 0

/-- A digit string of digits below `base` stays below `base^n`. -/
theorem ofDigits_lt (base : Nat) (f : Nat → Nat) (n : Nat) (hf : ∀ j, f j < base) :
    ofDigits base ((List.range n).map f) < base ^ n := by
  induction n with
  | zero => simp [ofDigits]
  | succ n ih =>
    simp only [ofDigits] at ih ⊢
    rw [List.range_succ, List.map_append, List.foldl_append]
    simp only [List.map_cons, List.map_nil, List.foldl_cons, List.foldl_nil, Nat.pow_succ]
    have := hf n
    have := Nat.mul_le_mul_right base (Nat.succ_le_of_lt ih)
    rw [Nat.succ_mul] at this
    omega

/-- Reading back the `n` lowest digits of `m` gives `m mod base^n`, for base `2^k`. -/
theorem ofDigits_digits (k m n : Nat) :
    ofDigits (2 ^ k) (toDigits k m n) = m % (2 ^ k) ^ n := by
  unfold toDigits
  induction n generalizing m with
  | zero => simp [ofDigits, Nat.mod_one]
  | succ n ih =>
    have hs : (List.range (n + 1)).map (fun j => m >>> (k * (n + 1 - 1 - j)) % 2 ^ k) =
        (List.range n).map (fun j => (m >>> k) >>> (k * (n - 1 - j)) % 2 ^ k) ++ [m % 2 ^ k] := by
      rw [List.range_succ, List.map_append]
      congr 1
      · refine List.map_congr_left fun j hj => ?_
        have := List.mem_range.mp hj
        rw [← Nat.shiftRight_add, show n + 1 - 1 - j = (n - 1 - j) + 1 by omega, Nat.mul_succ, Nat.add_comm]
      · simp
    have := ih (m >>> k)
    simp only [ofDigits] at this ⊢
    rw [hs, List.foldl_append, this]
    simp only [List.foldl_cons, List.foldl_nil]
    rw [Nat.shiftRight_eq_div_pow, Nat.pow_succ, Nat.mul_comm ((2 ^ k) ^ n) (2 ^ k), Nat.mod_mul]
    ring

@[simp] theorem toDigits_length (k m n : Nat) : (toDigits k m n).length = n := by simp [toDigits]

/-- A hex digit's value is below 16. -/
theorem hexVal_lt (c : Config) (b : Byte) : hexVal c b < 16 := by
  unfold hexVal; simp only; split
  · omega
  · split
    · omega
    · split
      · split <;> omega
      · omega

/-- Reading a digit character gives the digit, whatever HEX_LOWER_ACCEPT is (41_transfer.md R127, R129, R131). -/
theorem hexVal_hexChr (c : Config) {d : Nat} (h : d < 16) : hexVal c (hexChr d) = d := by
  unfold hexVal hexChr
  interval_cases d <;> rfl

/-! ## SR encodings (10_state.md R38) -/

theorem srWord_toNat (c : Config) {x : Nat} (h : x < 2 ^ c.width) : (srWord c x).toNat = x := by
  have : 2 ^ c.width ≤ 2 ^ 64 := Nat.pow_le_pow_right (by omega) (by rcases width_cases c with h | h <;> omega)
  rw [srWord, Nat.mod_eq_of_lt h, BitVec.toNat_ofNat, Nat.mod_eq_of_lt (by omega)]

theorem srWord_lt (c : Config) (x : Nat) : (srWord c x).toNat < 2 ^ c.width := by
  have hm := Nat.mod_lt x (show 0 < 2 ^ c.width by positivity)
  rw [srWord, BitVec.toNat_ofNat]
  exact lt_of_le_of_lt (Nat.mod_le _ _) hm

theorem two_le_two_pow_width (c : Config) : 2 ≤ 2 ^ c.width := by
  rcases width_cases c with h | h <;> rw [h] <;> decide

theorem srBool_toNat (c : Config) (b : Bool) : (srBool c b).toNat = if b then 1 else 0 := by
  have := two_le_two_pow_width c
  rw [srBool, srWord_toNat c (by cases b <;> simp only [Bool.toNat_true, Bool.toNat_false] <;> omega)]
  cases b <;> rfl

end Sys2Proof.Machine
end

