-- ==== Sys2Proof/Laws/Exec.lean ====
section
/-! SUPPORT. What a command can do, said once: every command either takes a fault or completes in one of six ways. -/

namespace Sys2Proof.Machine

/-! ## The shared ends of a command -/

theorem State.complete_eq (s : State) : s.complete = .next s.count := rfl

theorem State.raise_eq (s : State) (f : FaultCode) (w : Word32) : s.raise f w = .next (s.enterFault f w) := rfl

theorem State.answer_eq (s : State) (v : Word64) : s.answer v = .next (s.setSr v).count := rfl

/-- Committing a value that a condition guards: it is written, or the violation is raised. -/
theorem State.commit_ite (s : State) (w : Word32) (r : Reg) (p : Prop) [Decidable p] (v : Int) (f : FaultCode) :
    s.commit w r (if p then .ok v else .error f) = if p then .next (s.writeNum r v).count else .next (s.enterFault f w) := by
  split <;> rfl

/-- What `commit` answers. -/
theorem State.commit_cases (s : State) (w : Word32) (r : Reg) (e : Except FaultCode Int) :
    (∃ v, e = .ok v ∧ s.commit w r e = .next (s.writeNum r v).count) ∨
      (∃ f, e = .error f ∧ s.commit w r e = .next (s.enterFault f w)) := by
  cases e with
  | ok v => exact .inl ⟨v, rfl, rfl⟩
  | error f => exact .inr ⟨f, rfl, rfl⟩

/-- The conditions a transfer of `n` bytes checks first. -/
theorem fieldFault_cases (k : Nat) (g : FaultCode) (addr n : Nat) :
    (fieldFault k g addr n = none ∧ 1 ≤ n ∧ n ≤ k ∧ addr + n ≤ 256) ∨
      (fieldFault k g addr n = some g ∧ (n = 0 ∨ k < n)) ∨
      (fieldFault k g addr n = some .bufRange ∧ 1 ≤ n ∧ n ≤ k ∧ 256 < addr + n) := by
  unfold fieldFault
  by_cases h : n = 0 ∨ k < n
  · simp [h]
  · by_cases h' : 256 < addr + n <;> simp [h, h'] <;> omega

/-- A field that keeps its contract faults at nothing. -/
theorem fieldFault_eq_none {k : Nat} {g : FaultCode} {addr n : Nat} (h1 : 1 ≤ n) (h2 : n ≤ k) (h3 : addr + n ≤ 256) :
    fieldFault k g addr n = none := by
  unfold fieldFault; rw [if_neg (by omega), if_neg (by omega)]

theorem State.bytesValue_eq (s : State) (addr n : Nat) :
    s.bytesValue addr n = ∑ j ∈ Finset.range n, (s.readByte (addr + j)).toNat * 256 ^ (n - 1 - j) := by
  rw [State.bytesValue, State.memRead, List.map_map]
  exact ofDigits_eq_sum 256 _ n

theorem State.bytesValue_lt (s : State) (addr n : Nat) : s.bytesValue addr n < 256 ^ n := by
  rw [State.bytesValue, State.memRead, List.map_map]
  exact ofDigits_lt 256 _ n fun j => (s.readByte (addr + j)).isLt

theorem State.hexValue_eq (s : State) (addr n : Nat) :
    s.hexValue addr n = ∑ j ∈ Finset.range n, hexVal s.cfg (s.readByte (addr + j)) * 16 ^ (n - 1 - j) := by
  rw [State.hexValue, State.memRead, List.map_map]
  exact ofDigits_eq_sum 16 _ n

theorem State.hexValue_lt (s : State) (addr n : Nat) : s.hexValue addr n < 16 ^ n := by
  rw [State.hexValue, State.memRead, List.map_map]
  exact ofDigits_lt 16 _ n fun j => hexVal_lt s.cfg _

/-! ## Magnitudes that fit (10_state.md R33) -/

/-- What fits `MAX_LIMBS` limbs fits a register. -/
theorem fits_of_lt (c : Config) {m : Nat} (h : m < 2 ^ (c.width * c.maxLimbs)) : FitsRegister c m :=
  lt_of_lt_of_le h (Nat.pow_le_pow_right (by omega) (Nat.mul_le_mul_left _ (maxLimbs_le_cap c)))

theorem fits_of_le {c : Config} {m n : Nat} (h : FitsRegister c n) (hm : m ≤ n) : FitsRegister c m := lt_of_le_of_lt hm h

/-- `n` digits of `k` bits, 512 bits in all at most, fit `MAX_LIMBS` limbs (00_scope.md R12). -/
theorem pow_le_maxLimbs (c : Config) (k n : Nat) (h : k * n ≤ 512) : (2 ^ k) ^ n ≤ 2 ^ (c.width * c.maxLimbs) := by
  rw [← Nat.pow_mul]; exact Nat.pow_le_pow_right (by omega) (by rw [width_mul_maxLimbs]; exact h)

/-- A product fits when the limb counts of its factors sum to at most CAP (44_multiplicative.md R190). -/
theorem fits_mul (c : Config) {a b : Int} (h : a = 0 ∨ b = 0 ∨ limbs c a.natAbs + limbs c b.natAbs ≤ c.cap) :
    FitsRegister c (a * b).natAbs := by
  unfold FitsRegister
  rcases h with rfl | rfl | h
  · simp
  · simp
  · rw [Int.natAbs_mul]
    refine lt_of_lt_of_le (Nat.mul_lt_mul'' (lt_two_pow_limbs c _) (lt_two_pow_limbs c _)) ?_
    rw [← Nat.pow_add, ← Nat.mul_add]
    exact Nat.pow_le_pow_right (by omega) (Nat.mul_le_mul_left _ h)

/-- A residue by an accepted modulus fits. -/
theorem fits_emod (c : Config) (r : Int) {m : Int} (h : modulusBad c m = false) : FitsRegister c (r % m).natAbs := by
  obtain ⟨hm, hl⟩ := (modulusBad_eq_false c m).mp h
  have h1 := (limbs_le_iff c m.natAbs _ (maxLimbs_pos c)).mp hl
  have := Int.emod_nonneg r hm.ne'
  have := Int.emod_lt_of_pos r hm
  exact fits_of_lt c (by omega)

/-! ## Inversion -/

/-- The ways a command can end: a fault, or a completion that writes SR, one number register, BUF bytes, SR and a register (SHR),
two registers (SPLIT), or clears a register (ZERO). -/
inductive ExecCase (i : Instr) (s : State) : State → Prop
  | fault (f : FaultCode) (hf : f ≠ .magSub) : ExecCase i s (s.enterFault f (encode i))
  | answer (v : Word64) (hv : v.toNat < 2 ^ s.cfg.width) : ExecCase i s (s.setSr v).count
  | write (rd : Reg) (v : Int) (hv : (∀ r, FitsRegister s.cfg (s.mag r)) → FitsRegister s.cfg v.natAbs) :
      ExecCase i s (s.writeNum rd v).count
  | store (addr : Nat) (bs : List Byte) (hb : addr + bs.length ≤ 256) : ExecCase i s (s.memWrite addr bs).count
  | shift (rd : Reg) (v : Word64) (x : Int) (hv : v.toNat < 2 ^ s.cfg.width) (hx : x.natAbs ≤ s.mag rd) :
      ExecCase i s ((s.setSr v).writeNum rd x).count
  | split (rd rb ra : Reg) (x y : Int) (hx : x.natAbs ≤ s.mag ra) (hy : y.natAbs ≤ s.mag ra) :
      ExecCase i s ((s.writeNum rd x).writeNum rb y).count
  | clear (rd : Reg) : ExecCase i s (s.zeroize rd).count

/-- A commit is a write or a fault. -/
theorem ExecCase.commit {i : Instr} {s : State} {rd : Reg} {e : Except FaultCode Int}
    (hv : ∀ v, e = .ok v → (∀ r, FitsRegister s.cfg (s.mag r)) → FitsRegister s.cfg v.natAbs)
    (hf : e ≠ .error .magSub) : ∃ t, s.commit (encode i) rd e = .next t ∧ ExecCase i s t := by
  rcases s.commit_cases (encode i) rd e with ⟨v, h, hc⟩ | ⟨f, h, hc⟩
  · exact ⟨_, hc, .write rd v (hv v h)⟩
  · exact ⟨_, hc, .fault f fun hm => hf (hm ▸ h)⟩

/-- A guarded value that fits is a commit whose two sides are known. -/
theorem ExecCase.commit_ite {i : Instr} {s : State} {rd : Reg} {p : Prop} [Decidable p] {v : Int} {f : FaultCode}
    (hv : p → (∀ r, FitsRegister s.cfg (s.mag r)) → FitsRegister s.cfg v.natAbs) (hf : f ≠ .magSub) :
    ∃ t, s.commit (encode i) rd (if p then .ok v else .error f) = .next t ∧ ExecCase i s t := by
  refine ExecCase.commit (fun w hw => ?_) (fun h => ?_)
  · split at hw
    · obtain rfl := Except.ok.inj hw; exact hv ‹_›
    · cases hw
  · split at h
    · cases h
    · exact hf (Except.error.inj h)

/-- The magnitude of a truncating quotient is at most the dividend's. -/
theorem natAbs_tdiv_le' (a b : Int) : (a.tdiv b).natAbs ≤ a.natAbs := by
  rw [Int.natAbs_tdiv]; exact Nat.div_le_self _ _

theorem natAbs_shiftRight (a : Int) (n : Nat) : (shiftRight a n).natAbs ≤ a.natAbs := by
  rw [shiftRight, natAbs_mk, Nat.shiftRight_eq_div_pow]; exact Nat.div_le_self _ _

theorem natAbs_splitParts (a : Int) (p : Nat) :
    (splitParts a p).1.natAbs ≤ a.natAbs ∧ (splitParts a p).2.natAbs ≤ a.natAbs := by
  unfold splitParts
  split
  · simp
  · simp only [natAbs_mk, Nat.shiftRight_eq_div_pow]
    exact ⟨Nat.mod_le _ _, Nat.div_le_self _ _⟩

/-- MODINV's value fits (45_modular.md R213). -/
theorem modInverse_fits (c : Config) (a m : Int) (u : Bool) {v : Int} (h : modInverse c a m u = .ok v) :
    FitsRegister c v.natAbs := by
  unfold modInverse at h
  split at h
  · cases h
  · rename_i hm
    split at h
    · cases h
    · rename_i hg
      obtain rfl := Except.ok.inj h
      rw [natAbs_mk]
      have hl := (limbs_le_iff c m.natAbs _ (maxLimbs_pos c)).mp (by omega)
      refine fits_of_lt c ?_
      split
      · exact lt_of_le_of_lt (Bool.toNat_le u) (Nat.one_lt_two_pow (by rw [width_mul_maxLimbs]; decide))
      · have := inverseOf_spec (not_not.mp hg) (show 1 < m.natAbs by omega)
        omega

theorem modInverse_ne_magSub (c : Config) (a m : Int) (u : Bool) : modInverse c a m u ≠ .error .magSub := by
  unfold modInverse; split
  · simp
  · split <;> simp

/-- Every command, in every state, takes a fault or completes in one of the listed ways. -/
theorem exec_cases (i : Instr) (s : State) : ∃ t, exec i s = .next t ∧ ExecCase i s t := by
  cases i with
  | zero rd => exact ⟨_, rfl, .clear rd⟩
  | mov rd ra => exact ⟨_, rfl, .write rd _ fun h => h ra⟩
  | ldb rd addr len =>
    rcases fieldFault_cases 64 .bytesLen addr len with ⟨h, _, hl, _⟩ | ⟨h, _⟩ | ⟨h, _⟩ <;> simp only [exec, execLdb, h]
    · exact ⟨_, rfl, .write rd _ fun _ => fits_of_lt _
        (lt_of_lt_of_le (s.bytesValue_lt addr len) (pow_le_maxLimbs _ 8 len (by omega)))⟩
    · exact ⟨_, rfl, .fault _ (by decide)⟩
    · exact ⟨_, rfl, .fault _ (by decide)⟩
  | stb ra addr len =>
    rcases fieldFault_cases 64 .bytesLen addr len with ⟨h, _⟩ | ⟨h, _⟩ | ⟨h, _⟩ <;> simp only [exec, execStb, h]
    · split
      · exact ⟨_, rfl, .fault _ (by decide)⟩
      · exact ⟨_, rfl, .store addr _ (by simpa using by omega)⟩
    · exact ⟨_, rfl, .fault _ (by decide)⟩
    · exact ⟨_, rfl, .fault _ (by decide)⟩
  | ldw rd addr =>
    simp only [exec, execLdw]
    split
    · exact ⟨_, rfl, .fault _ (by decide)⟩
    · refine ⟨_, rfl, .write rd _ fun _ => fits_of_lt _ ?_⟩
      have hb := s.bytesValue_lt addr (s.cfg.width / 8)
      have h64 : 256 ^ (s.cfg.width / 8) ≤ 2 ^ 64 := pow_le_pow_right₀ (n := 8) (by omega : 1 ≤ 256)
        (by rcases width_cases s.cfg with h | h <;> omega)
      have h64' : (2 : Int) ^ s.cfg.width ≤ 2 ^ 64 := pow_le_pow_right₀ (by omega)
        (by rcases width_cases s.cfg with h | h <;> omega)
      have hp : (0 : Int) < 2 ^ s.cfg.width := by positivity
      have hm := pow_le_maxLimbs s.cfg 1 65 (by decide)
      unfold sext
      split <;> omega
  | ldh rd addr len =>
    rcases fieldFault_cases 128 .hexLen addr len with ⟨h, _, hl, _⟩ | ⟨h, _⟩ | ⟨h, _⟩ <;> simp only [exec, execLdh, h]
    · exact ⟨_, rfl, .write rd _ fun _ => fits_of_lt _
        (lt_of_lt_of_le (s.hexValue_lt addr len) (pow_le_maxLimbs _ 4 len (by omega)))⟩
    · exact ⟨_, rfl, .fault _ (by decide)⟩
    · exact ⟨_, rfl, .fault _ (by decide)⟩
  | sth ra addr len =>
    rcases fieldFault_cases 128 .hexLen addr len with ⟨h, _⟩ | ⟨h, _⟩ | ⟨h, _⟩ <;> simp only [exec, execSth, h]
    · split
      · exact ⟨_, rfl, .fault _ (by decide)⟩
      · exact ⟨_, rfl, .store addr _ (by simpa using by omega)⟩
    · exact ⟨_, rfl, .fault _ (by decide)⟩
    · exact ⟨_, rfl, .fault _ (by decide)⟩
  | cmpm ra rb => exact ⟨_, rfl, .answer _ (srWord_lt _ _)⟩
  | eq ra rb => exact ⟨_, rfl, .answer _ (srWord_lt _ _)⟩
  | isz ra => exact ⟨_, rfl, .answer _ (srWord_lt _ _)⟩
  | isodd ra => exact ⟨_, rfl, .answer _ (srWord_lt _ _)⟩
  | isneg ra => exact ⟨_, rfl, .answer _ (srWord_lt _ _)⟩
  | add rd ra rb =>
    simp only [exec, execAdd, addsub_add]
    exact ExecCase.commit_ite (fun h _ => h) (by decide)
  | sub rd ra rb =>
    simp only [exec, execSub, addsub_sub]
    exact ExecCase.commit_ite (fun h _ => h) (by decide)
  | mul rd ra rb =>
    simp only [exec, execMul, multiply_eq]
    exact ExecCase.commit_ite (fun h _ => fits_mul _ h) (by decide)
  | div rd ra rb =>
    simp only [exec, execDiv, divide_eq, ← ite_not (p := s.num rb = 0)]
    exact ExecCase.commit_ite (fun _ h => fits_of_le (h ra) (natAbs_tdiv_le' _ _)) (by decide)
  | modmul rd ra rb rc =>
    simp only [exec, execModmul]
    refine ExecCase.commit (fun v hv _ => ?_) ?_
    · rw [modularMultiply_eq] at hv
      split at hv
      · cases hv
      · split at hv
        · obtain rfl := Except.ok.inj hv; exact fits_emod _ _ (Bool.eq_false_of_not_eq_true ‹_›)
        · cases hv
    · rw [modularMultiply_eq]; split
      · simp
      · split <;> simp
  | modred rd rc =>
    simp only [exec, execModred]
    refine ExecCase.commit (fun v hv _ => ?_) ?_
    · rw [modReduce_eq] at hv
      split at hv
      · cases hv
      · obtain rfl := Except.ok.inj hv; exact fits_emod _ _ (Bool.eq_false_of_not_eq_true ‹_›)
    · rw [modReduce_eq]; split <;> simp
  | modinv rd ra rc => exact ExecCase.commit (fun v hv _ => modInverse_fits _ _ _ _ hv) (modInverse_ne_magSub _ _ _ _)
  | blen ra => exact ⟨_, rfl, .answer _ (srWord_lt _ _)⟩
  | getbit ra pos => exact ⟨_, rfl, .answer _ (srWord_lt _ _)⟩
  | getbits ra off cnt =>
    simp only [exec, execGetbits]
    split
    · exact ⟨_, rfl, .fault _ (by decide)⟩
    · exact ⟨_, rfl, .answer _ (srWord_lt _ _)⟩
  | shr rd sh =>
    simp only [exec, execShr]
    split
    · exact ⟨_, rfl, .fault _ (by decide)⟩
    · exact ⟨_, rfl, .shift rd _ _ (srWord_lt _ _) (natAbs_shiftRight _ _)⟩
  | inc rd =>
    simp only [exec, execInc, increment, fit_eq]
    exact ExecCase.commit_ite (fun h _ => by rw [natAbs_mk]; exact h) (by decide)
  | neg rd => exact ⟨_, rfl, .write rd _ fun h => by rw [negate, natAbs_mk]; exact h rd⟩
  | split rd rb ra pos =>
    simp only [exec, execSplit]
    split
    · exact ⟨_, rfl, .fault _ (by decide)⟩
    · split
      · exact ⟨_, rfl, .fault _ (by decide)⟩
      · exact ⟨_, rfl, .split rd rb ra _ _ (natAbs_splitParts _ _).1 (natAbs_splitParts _ _).2⟩

end Sys2Proof.Machine
end

