-- ==== Sys2Proof/Laws/Step.lean ====
section
/-! SUPPORT. What a step can do, said once: idle, refuse, or perform the host's next access in one of five ways. -/

namespace Sys2Proof.Machine

/-- A step with an access waiting performs it, the access taken from the port. -/
theorem step_cons (s : State) {a : HostAccess} {rest : List HostAccess} (h : s.inbox = a :: rest) :
    step s = (s.setInbox rest).hostAccess a := by
  simp only [step, State.advance, h]

theorem step_nil (s : State) (h : s.inbox = []) : step s = .next s := by simp only [step, State.advance, h]

/-- The register at an offset from HOST_BASE. -/
@[simp] theorem portOf_add (c : Config) (o : Nat) : portOf c (c.hostBase + o) = portAt o := by simp [portOf]

/-- The window's BUF part. -/
theorem portAt_buf {o : Nat} (h1 : 0x100 ≤ o) (h2 : o ≤ 0x1FF) : portAt o = some (.buf (o - 0x100)) := by
  unfold portAt
  rw [if_neg (by omega), if_neg (by omega), if_neg (by omega), if_neg (by omega), if_neg (by omega), if_neg (by omega),
    if_pos ⟨h1, h2⟩]

/-- Where a register of the window stands. -/
theorem portAt_eq_some {o : Nat} {p : Port} (h : portAt o = some p) :
    (p = .ctrl → o = 0x00C) ∧ ∀ a, p = .buf a → a < 256 := by
  unfold portAt at h
  repeat' split at h
  all_goals
    cases h <;>
    exact ⟨by first | (intro _; assumption) | (intro hp; cases hp), by intro a ha; first | (rw [Port.buf.injEq] at ha; omega) | cases ha⟩

/-- A port found for an access is the one at its address, accessed at its width. -/
theorem portFor_eq_ok {c : Config} {addr width : Nat} {p : Port} (h : portFor c addr width = .ok p) :
    portOf c addr = some p ∧ width = portWidth c p := by
  unfold portFor at h
  split at h
  · cases h
  · split at h
    · obtain rfl := Except.ok.inj h; exact ⟨‹_›, ‹_›⟩
    · cases h

/-- The port at an address stands at its offset from HOST_BASE. -/
theorem portOf_eq_some {c : Config} {addr : Nat} {p : Port} (h : portOf c addr = some p) :
    ∃ o, addr = c.hostBase + o ∧ portAt o = some p := by
  unfold portOf at h
  split at h
  · cases h
  · exact ⟨addr - c.hostBase, by omega, h⟩

/-- The ways a step can go. `s₀` is the state with the access taken from the port. -/
inductive StepCase (s : State) : Result → Prop
  | idle (h : s.inbox = []) : StepCase s (.next s)
  | refuse (r : Refusal) : StepCase s (.refused r)
  | ignore (rest : List HostAccess) (a : HostAccess) (h : s.inbox = a :: rest) : StepCase s (.next (s.setInbox rest))
  | reply (rest : List HostAccess) (a : HostAccess) (h : s.inbox = a :: rest) (r : HostReply) :
      StepCase s (.next ((s.setInbox rest).reply r))
  | store (rest : List HostAccess) (a : HostAccess) (h : s.inbox = a :: rest) (k : Nat) (b : Byte) (hk : k < 256) :
      StepCase s (.next ((s.setInbox rest).writeByte k b))
  | reset (rest : List HostAccess) (a : HostAccess) (h : s.inbox = a :: rest) (ha : IsResetWrite s.cfg a) :
      StepCase s (.next (s.setInbox rest).hwReset)
  | issue (rest : List HostAccess) (a : HostAccess) (h : s.inbox = a :: rest) (w : Word32) :
      StepCase s ((s.setInbox rest).issue w)

theorem step_cases (s : State) : StepCase s (step s) := by
  rcases hi : s.inbox with _ | ⟨a, rest⟩
  · rw [step_nil s hi]; exact .idle hi
  · rw [step_cons s hi]
    cases a with
    | read addr width =>
      simp only [State.hostAccess, State.setInbox_cfg]
      split
      · exact .reply rest _ hi _
      · exact .refuse _
    | write addr width data =>
      simp only [State.hostAccess, State.setInbox_cfg]
      split
      · rename_i p hp
        obtain ⟨ho, hw⟩ := portFor_eq_ok hp
        obtain ⟨o, rfl, hat⟩ := portOf_eq_some ho
        obtain ⟨hctrl, hbuf⟩ := portAt_eq_some hat
        cases p with
        | cmd => exact .issue rest _ hi _
        | status => exact .ignore rest _ hi
        | fcmd => exact .ignore rest _ hi
        | sr => exact .ignore rest _ hi
        | ccnt => exact .ignore rest _ hi
        | buf k => exact .store rest _ hi k _ (hbuf k rfl)
        | ctrl =>
          simp only [State.portWrite]
          split
          · exact .reset rest _ hi ⟨by rw [hctrl rfl], hw, ‹_›⟩
          · exact .ignore rest _ hi
      · exact .refuse _

/-- The ways a command word can go: discarded while FAULT is 1, performed, or illegal. -/
inductive IssueCase (s : State) (w : Word32) : Result → Prop
  | discard (h : s.fault ≠ none) : IssueCase s w (.next s.discard)
  | illegal (h : s.fault = none) (e : DecodeError) (hd : decode w = .error e) :
      IssueCase s w (.next (s.enterFault .illegalCommand w))
  | run (h : s.fault = none) (i : Instr) (hd : decode w = .ok i) (t : State) (ht : exec i s = .next t)
      (hc : ExecCase i s t) : IssueCase s w (.next t)

theorem issue_cases (s : State) (w : Word32) : IssueCase s w (s.issue w) := by
  unfold State.issue
  split
  · exact .discard (Option.isSome_iff_ne_none.mp ‹_›)
  · rename_i hs
    have hf : s.fault = none := by simpa using hs
    split
    · obtain ⟨t, ht, hc⟩ := exec_cases _ s
      rw [ht]
      exact .run hf _ ‹_› t ht hc
    · exact .illegal hf _ ‹_›

/-! ## Runs -/

theorem coreRun_next (M : Host.Core) (k : Nat) {s s' : M.State} (h : M.step s = .next s') :
    M.run (k + 1) s = M.run k s' := by
  simp only [Host.Core.run, h]

theorem coreRun_succ (M : Host.Core) (k : Nat) {s t : M.State} (h : M.run (k + 1) s = .next t) :
    ∃ s', M.step s = .next s' ∧ M.run k s' = .next t := by
  simp only [Host.Core.run] at h
  split at h
  · exact ⟨_, ‹_›, h⟩
  · cases h
  · cases h

/-- A run of `k + 1` steps is a step, then a run of `k`. -/
theorem run_next (k : Nat) {s s' : State} (h : step s = .next s') :
    Host.Core.run core (k + 1) s = Host.Core.run core k s' := coreRun_next core k h

/-- A run of `k + 1` steps that ends in a state went through a first step. -/
theorem run_succ (k : Nat) {s t : State} (h : Host.Core.run core (k + 1) s = .next t) :
    ∃ s', step s = .next s' ∧ Host.Core.run core k s' = .next t := coreRun_succ core k h

end Sys2Proof.Machine
end

