-- ==== Sys2Proof/Laws/Decode.lean ====
section
/-! SUPPORT. Decoding a word given as its opcode and the sum of its fields, and the step that a command word makes. -/

namespace Sys2Proof

/-- A word is decoded by its opcode, the fields below not reaching into it. -/
theorem decode_word (op low : Nat) (h1 : op < 64) (h2 : low < 2 ^ 26) :
    decode (BitVec.ofNat 32 (op * 2 ^ 26 + low)) = decodeFields op (BitVec.ofNat 32 (op * 2 ^ 26 + low)) := by
  have : bits (BitVec.ofNat 32 (op * 2 ^ 26 + low)) 31 26 = op := by
    simp only [bits, BitVec.toNat_ofNat]; omega
  rw [decode, this]

/-- A command with its unused fields zero is accepted. -/
theorem accept_eq_ok {unused : Nat} (h : unused = 0) (i : Instr) : accept unused i = .ok i := if_pos h

/-- What is accepted has its unused fields zero. -/
theorem accept_eq_ok_iff (unused : Nat) (i j : Instr) : accept unused i = .ok j ↔ unused = 0 ∧ i = j := by
  unfold accept; split <;> simp [*]

namespace Machine

/-- A 32-bit command word goes through the 64-bit data of an access unchanged. -/
theorem setWidth_setWidth_word (w : Word32) : (w.setWidth 64).setWidth 32 = w := by
  apply BitVec.eq_of_toNat_eq; have := w.isLt; simp

/-- The step at a write of a command word to CMD. -/
theorem step_cmd (s : State) (w : Word32) {rest : List HostAccess} (h : s.inbox = cmdWrite s.cfg w :: rest) :
    step s = (s.setInbox rest).issue w := by
  rw [step_cons s h]
  have hp : portOf s.cfg s.cfg.hostBase = some .cmd := portOf_add s.cfg 0
  simp only [cmdWrite, State.hostAccess, portFor, State.setInbox_cfg, hp, portWidth, if_pos, State.portWrite,
    setWidth_setWidth_word]

/-- The state whose next step runs a word: its step. -/
theorem step_withFetchWord (s : State) (nbits w : Nat) :
    step (s.withFetchWord nbits w) = s.issue (BitVec.ofNat 32 (w % 2 ^ nbits)) :=
  step_cmd _ _ rfl

end Machine

end Sys2Proof
end

