-- ==== Sys2Proof/Laws/PerInstr.lean ====
section
/-! SUPPORT. One lemma per instruction: its word carries the opcode that its row of the opcode table gives it. -/

namespace Sys2Proof.Laws.EncodeCarriesOpcode

/-- No field of a well-formed instruction reaches into bits 31:26, which hold its row's opcode (30_encoding.md R92-R96). -/
def Statement (i : Instr) : Prop := i.WellFormed = true → (encode i).toNat / 2 ^ 26 = (rowOf i).2.toNat / 2 ^ 26

theorem zero (rd : Reg) : Statement (.zero rd) := by
  intro _
  have := rd.isLt
  simp only [encode, encodeR, rowOf, BitVec.toNat_ofNat, BitVec.reduceToNat]
  omega

theorem mov (rd : Reg) (ra : Reg) : Statement (.mov rd ra) := by
  intro _
  have := rd.isLt
  have := ra.isLt
  simp only [encode, encodeR, rowOf, BitVec.toNat_ofNat, BitVec.reduceToNat]
  omega

theorem ldb (rd : Reg) (addr : Nat) (len : Nat) : Statement (.ldb rd addr len) := by
  intro h
  simp only [Instr.WellFormed, decide_eq_true_eq] at h
  have := rd.isLt
  simp only [encode, encodeM, rowOf, BitVec.toNat_ofNat, BitVec.reduceToNat]
  omega

theorem stb (ra : Reg) (addr : Nat) (len : Nat) : Statement (.stb ra addr len) := by
  intro h
  simp only [Instr.WellFormed, decide_eq_true_eq] at h
  have := ra.isLt
  simp only [encode, encodeM, rowOf, BitVec.toNat_ofNat, BitVec.reduceToNat]
  omega

theorem ldw (rd : Reg) (addr : Nat) : Statement (.ldw rd addr) := by
  intro h
  simp only [Instr.WellFormed, decide_eq_true_eq] at h
  have := rd.isLt
  simp only [encode, encodeM, rowOf, BitVec.toNat_ofNat, BitVec.reduceToNat]
  omega

theorem ldh (rd : Reg) (addr : Nat) (len : Nat) : Statement (.ldh rd addr len) := by
  intro h
  simp only [Instr.WellFormed, decide_eq_true_eq] at h
  have := rd.isLt
  simp only [encode, encodeM, rowOf, BitVec.toNat_ofNat, BitVec.reduceToNat]
  omega

theorem sth (ra : Reg) (addr : Nat) (len : Nat) : Statement (.sth ra addr len) := by
  intro h
  simp only [Instr.WellFormed, decide_eq_true_eq] at h
  have := ra.isLt
  simp only [encode, encodeM, rowOf, BitVec.toNat_ofNat, BitVec.reduceToNat]
  omega

theorem cmpm (ra : Reg) (rb : Reg) : Statement (.cmpm ra rb) := by
  intro _
  have := ra.isLt
  have := rb.isLt
  simp only [encode, encodeR, rowOf, BitVec.toNat_ofNat, BitVec.reduceToNat]
  omega

theorem eq (ra : Reg) (rb : Reg) : Statement (.eq ra rb) := by
  intro _
  have := ra.isLt
  have := rb.isLt
  simp only [encode, encodeR, rowOf, BitVec.toNat_ofNat, BitVec.reduceToNat]
  omega

theorem isz (ra : Reg) : Statement (.isz ra) := by
  intro _
  have := ra.isLt
  simp only [encode, encodeR, rowOf, BitVec.toNat_ofNat, BitVec.reduceToNat]
  omega

theorem isodd (ra : Reg) : Statement (.isodd ra) := by
  intro _
  have := ra.isLt
  simp only [encode, encodeR, rowOf, BitVec.toNat_ofNat, BitVec.reduceToNat]
  omega

theorem isneg (ra : Reg) : Statement (.isneg ra) := by
  intro _
  have := ra.isLt
  simp only [encode, encodeR, rowOf, BitVec.toNat_ofNat, BitVec.reduceToNat]
  omega

theorem add (rd : Reg) (ra : Reg) (rb : Reg) : Statement (.add rd ra rb) := by
  intro _
  have := rd.isLt
  have := ra.isLt
  have := rb.isLt
  simp only [encode, encodeR, rowOf, BitVec.toNat_ofNat, BitVec.reduceToNat]
  omega

theorem sub (rd : Reg) (ra : Reg) (rb : Reg) : Statement (.sub rd ra rb) := by
  intro _
  have := rd.isLt
  have := ra.isLt
  have := rb.isLt
  simp only [encode, encodeR, rowOf, BitVec.toNat_ofNat, BitVec.reduceToNat]
  omega

theorem mul (rd : Reg) (ra : Reg) (rb : Reg) : Statement (.mul rd ra rb) := by
  intro _
  have := rd.isLt
  have := ra.isLt
  have := rb.isLt
  simp only [encode, encodeR, rowOf, BitVec.toNat_ofNat, BitVec.reduceToNat]
  omega

theorem div (rd : Reg) (ra : Reg) (rb : Reg) : Statement (.div rd ra rb) := by
  intro _
  have := rd.isLt
  have := ra.isLt
  have := rb.isLt
  simp only [encode, encodeR, rowOf, BitVec.toNat_ofNat, BitVec.reduceToNat]
  omega

theorem modmul (rd : Reg) (ra : Reg) (rb : Reg) (rc : Reg) : Statement (.modmul rd ra rb rc) := by
  intro _
  have := rd.isLt
  have := ra.isLt
  have := rb.isLt
  have := rc.isLt
  simp only [encode, encodeR, rowOf, BitVec.toNat_ofNat, BitVec.reduceToNat]
  omega

theorem modred (rd : Reg) (rc : Reg) : Statement (.modred rd rc) := by
  intro _
  have := rd.isLt
  have := rc.isLt
  simp only [encode, encodeR, rowOf, BitVec.toNat_ofNat, BitVec.reduceToNat]
  omega

theorem modinv (rd : Reg) (ra : Reg) (rc : Reg) : Statement (.modinv rd ra rc) := by
  intro _
  have := rd.isLt
  have := ra.isLt
  have := rc.isLt
  simp only [encode, encodeR, rowOf, BitVec.toNat_ofNat, BitVec.reduceToNat]
  omega

theorem blen (ra : Reg) : Statement (.blen ra) := by
  intro _
  have := ra.isLt
  simp only [encode, encodeR, rowOf, BitVec.toNat_ofNat, BitVec.reduceToNat]
  omega

theorem getbit (ra : Reg) (pos : Nat) : Statement (.getbit ra pos) := by
  intro h
  simp only [Instr.WellFormed, decide_eq_true_eq] at h
  have := ra.isLt
  simp only [encode, encodeB, rowOf, BitVec.toNat_ofNat, BitVec.reduceToNat]
  omega

theorem getbits (ra : Reg) (off : Nat) (cnt : Nat) : Statement (.getbits ra off cnt) := by
  intro h
  simp only [Instr.WellFormed, decide_eq_true_eq] at h
  have := ra.isLt
  simp only [encode, encodeG, rowOf, BitVec.toNat_ofNat, BitVec.reduceToNat]
  omega

theorem shr (rd : Reg) (sh : Nat) : Statement (.shr rd sh) := by
  intro h
  simp only [Instr.WellFormed, decide_eq_true_eq] at h
  have := rd.isLt
  simp only [encode, encodeB, rowOf, BitVec.toNat_ofNat, BitVec.reduceToNat]
  omega

theorem inc (rd : Reg) : Statement (.inc rd) := by
  intro _
  have := rd.isLt
  simp only [encode, encodeR, rowOf, BitVec.toNat_ofNat, BitVec.reduceToNat]
  omega

theorem neg (rd : Reg) : Statement (.neg rd) := by
  intro _
  have := rd.isLt
  simp only [encode, encodeR, rowOf, BitVec.toNat_ofNat, BitVec.reduceToNat]
  omega

theorem split (rd : Reg) (rb : Reg) (ra : Reg) (pos : Nat) : Statement (.split rd rb ra pos) := by
  intro h
  simp only [Instr.WellFormed, decide_eq_true_eq] at h
  have := rd.isLt
  have := rb.isLt
  have := ra.isLt
  simp only [encode, encodeB, rowOf, BitVec.toNat_ofNat, BitVec.reduceToNat]
  omega

end Sys2Proof.Laws.EncodeCarriesOpcode
end

