-- ==== Sys2Proof/Tests/Slice0.lean ====
section
/-! SUPPORT. Tests: ill-formed terms, words written out from the encoding, vectors of 95_test_vectors.md (V<n>), and a witness for
the hypotheses of every statement that has any. -/

namespace Sys2Proof.Tests

set_option exponentiation.threshold 2000
set_option Elab.async false

open Sys2Proof Sys2Proof.Machine

/-! ## Ill-formed terms are refused (30_encoding.md R96, R104) -/

theorem test_illformed_ldb_addr : Instr.WellFormed (.ldb 0 256 1) = false := by decide
theorem test_illformed_ldb_len : Instr.WellFormed (.ldb 0 0 256) = false := by decide
theorem test_illformed_stb_addr : Instr.WellFormed (.stb 0 256 1) = false := by decide
theorem test_illformed_stb_len : Instr.WellFormed (.stb 0 0 256) = false := by decide
theorem test_illformed_ldw_addr : Instr.WellFormed (.ldw 0 256) = false := by decide
theorem test_illformed_ldh_addr : Instr.WellFormed (.ldh 0 256 1) = false := by decide
theorem test_illformed_ldh_len : Instr.WellFormed (.ldh 0 0 256) = false := by decide
theorem test_illformed_sth_addr : Instr.WellFormed (.sth 0 256 1) = false := by decide
theorem test_illformed_sth_len : Instr.WellFormed (.sth 0 0 256) = false := by decide
theorem test_illformed_getbit_pos : Instr.WellFormed (.getbit 0 16384) = false := by decide
theorem test_illformed_getbits_off : Instr.WellFormed (.getbits 0 2048 1) = false := by decide
theorem test_illformed_getbits_cnt : Instr.WellFormed (.getbits 0 0 128) = false := by decide
theorem test_illformed_shr_amount : Instr.WellFormed (.shr 0 16384) = false := by decide
theorem test_illformed_split_pos : Instr.WellFormed (.split 0 1 2 16384) = false := by decide

/-- The greatest value of every field is well formed. -/
theorem test_wellformed_limits :
    Instr.WellFormed (.ldb 15 255 255) = true ∧ Instr.WellFormed (.getbits 15 2047 127) = true ∧
      Instr.WellFormed (.split 15 14 13 16383) = true ∧ Instr.WellFormed (.getbit 15 16383) = true := by decide

/-! ## Words written out from the encoding

The opcode (30_encoding.md R99) and the fields at their places (R92-R95), each written as its bits, high to low. -/

theorem test_decode_zero : decode 0b00000111010000000000000000000000 = .ok (.zero 13) := by decide
theorem test_decode_mov : decode 0b00001010010110000000000000000000 = .ok (.mov 9 6) := by decide
theorem test_decode_ldb : decode 0b00001101010000101000010100000000 = .ok (.ldb 5 0xA1 0x40) := by decide
theorem test_decode_stb : decode 0b00010000000101101000010100000000 = .ok (.stb 5 0xA1 0x40) := by decide
theorem test_decode_ldw : decode 0b00010110100000100000110000000000 = .ok (.ldw 10 0x83) := by decide
theorem test_decode_ldh : decode 0b00011000110000011111101000000000 = .ok (.ldh 3 0x7E 0x80) := by decide
theorem test_decode_sth : decode 0b00011100001100011111101000000000 = .ok (.sth 12 0x7E 0x80) := by decide
theorem test_decode_cmpm : decode 0b00100000001011010000000000000000 = .ok (.cmpm 11 4) := by decide
theorem test_decode_eq : decode 0b00100100000001111000000000000000 = .ok (.eq 1 14) := by decide
theorem test_decode_isz : decode 0b00101000000111000000000000000000 = .ok (.isz 7) := by decide
theorem test_decode_isodd : decode 0b00101100001000000000000000000000 = .ok (.isodd 8) := by decide
theorem test_decode_isneg : decode 0b00110000001111000000000000000000 = .ok (.isneg 15) := by decide
theorem test_decode_add : decode 0b01000000010010010000000000000000 = .ok (.add 1 2 4) := by decide
theorem test_decode_sub : decode 0b01000110000100001000000000000000 = .ok (.sub 8 4 2) := by decide
theorem test_decode_mul : decode 0b01100000110101100100000000000000 = .ok (.mul 3 5 9) := by decide
theorem test_decode_div : decode 0b01100101101010110000000000000000 = .ok (.div 6 10 12) := by decide
theorem test_decode_modmul : decode 0b01101000010010010010000000000000 = .ok (.modmul 1 2 4 8) := by decide
theorem test_decode_modred : decode 0b10000010110000000011010000000000 = .ok (.modred 11 13) := by decide
theorem test_decode_modinv : decode 0b10000101111110000000010000000000 = .ok (.modinv 7 14 1) := by decide
theorem test_decode_blen : decode 0b10100000001001000000000000000000 = .ok (.blen 9) := by decide
theorem test_decode_getbit : decode 0b10100100000011000010101001011011 = .ok (.getbit 3 0x2A5B) := by decide
theorem test_decode_getbits : decode 0b10101000000110101010110000110011 = .ok (.getbits 6 0x433 0x55) := by decide
theorem test_decode_shr : decode 0b10101111000000000001111111111110 = .ok (.shr 12 0x1FFE) := by decide
theorem test_decode_inc : decode 0b10110000100000000000000000000000 = .ok (.inc 2) := by decide
theorem test_decode_neg : decode 0b10110101000000000000000000000000 = .ok (.neg 4) := by decide
theorem test_decode_split : decode 0b10111000010010010011110000000001 = .ok (.split 1 4 2 0x3C01) := by decide

/-- V1, V2, V6: reserved opcodes. -/
theorem test_decode_reserved :
    decode 0x00000000 = .error .reservedOpcode ∧ decode 0xFC000000 = .error .reservedOpcode ∧
      decode 0x34000000 = .error .reservedOpcode := by decide

/-- V3, V4, V5: unused fields that are not zero. -/
theorem test_decode_unused :
    decode 0x40C48001 = .error .unusedFieldNonzero ∧ decode 0x28440000 = .error .unusedFieldNonzero ∧
      decode 0x0C000005 = .error .unusedFieldNonzero := by decide

/-- 30_encoding.md R106: the worked encoding. -/
theorem test_encode_add : encode (.add 3 1 2) = 0x40C48000 := by decide

/-- The table's row and the formats agree on the greatest fields. -/
theorem test_rows :
    encode (.getbits 15 2047 127) &&& (rowOf (.getbits 15 2047 127)).1 = (rowOf (.getbits 15 2047 127)).2 ∧
      encode (.ldb 15 255 255) &&& (rowOf (.ldb 15 255 255)).1 = (rowOf (.ldb 15 255 255)).2 ∧
      encode (.modinv 15 15 15) &&& (rowOf (.modinv 15 15 15)).1 = (rowOf (.modinv 15 15 15)).2 := by decide

/-- R104 text: operands in the order of the syntax, hexadecimal and either case of a register. -/
theorem test_assembler_line :
    parseLine ['S', 'P', 'L', 'I', 'T', ' ', 'N', '2', ',', ' ', 'n', '3', ',', ' ', 'N', '1', ',', ' ', '2'] =
      some (.split 2 3 1 2) ∧
    parseLine ['L', 'D', 'B', ' ', 'N', '1', '5', ',', '0', 'x', 'F', 'f', ',', '1'] = some (.ldb 15 255 1) ∧
    parseLine ['L', 'D', 'B', ' ', 'N', '1', ',', '2', '5', '6', ',', '1'] = none := by decide

/-! ## One command, fetched from the port -/

/-- The two machines of the vectors (95_test_vectors.md: W = 64 or 32, HEX_LOWER_ACCEPT true unless stated). -/
def m64 : Config := { limbBits := .w64, hexLowerAccept := true, hostBase := 0x1000 }
def m32 : Config := { limbBits := .w32, hexLowerAccept := true, hostBase := 0x1000 }

/-- The reset state with the number registers and BUF bytes listed. -/
def start (c : Config) (l : List (Reg × Int)) (a : Nat) (bs : List Byte) : State :=
  (l.foldl (fun s x => s.setReg x.1 { val := x.2, tail := .zeroed }) (State.powerOn c)).memWrite a bs

/-- The step that runs a command word. -/
def go (s : State) (w : Nat) : Result := step (s.withFetchWord 32 w)

/-- What a result shows: a number register, SR, the low bytes from `a`, and STATUS with FCMD and CCNT. -/
def valOf (r : Result) (q : Reg) : Option Int := match r with
  | .next t => some (t.num q)
  | _ => none
def srOf (r : Result) : Option Nat := match r with
  | .next t => some t.sr.toNat
  | _ => none
def bytesOf (r : Result) (a n : Nat) : Option (List Byte) := match r with
  | .next t => some (t.memRead a n)
  | _ => none
def statusOf (r : Result) : Option (Nat × Nat × Nat) := match r with
  | .next t => some (t.status.toNat, t.fcmd.toNat, t.ccnt.toNat)
  | _ => none
def faultOf (r : Result) : Option FaultCode := match r with
  | .next t => t.fault
  | _ => none
def repliesOf (r : Result) : List Nat := match r with
  | .next t => t.replies.map (fun x => x.data.toNat)
  | _ => []

/-- V7 -/
theorem test_zero :
    valOf (go (start m64 [(5, -0x3039)] 0 []) 0x05400000) 5 = some (0) := by
  decide +kernel

/-- V8 -/
theorem test_mov :
    valOf (go (start m64 [(1, -7)] 0 []) 0x08840000) 2 = some (-7) := by
  decide +kernel

/-- V12 -/
theorem test_ldb_leading_zero :
    valOf (go (start m64 [] 0 [0, 1, 0, 0, 0, 0, 0, 0, 0, 0]) 0x0C400028) 1 = some (0x10000000000000000) := by
  decide +kernel

/-- V18 -/
theorem test_ldb_last_byte :
    valOf (go (start m64 [] 255 [0x80]) 0x0C43FC04) 1 = some (0x80) := by
  decide +kernel

/-- V19 -/
theorem test_stb_drops_sign :
    bytesOf (go (start m64 [(2, -0x1234)] 0 []) 0x10088010) 0x20 4 = some [0, 0, 0x12, 0x34] := by
  decide +kernel

/-- V22 -/
theorem test_stb_zero :
    bytesOf (go (start m64 [(2, 0)] 0x20 [0xAA, 0xAA, 0xAA]) 0x1008800C) 0x20 3 = some [0, 0, 0] := by
  decide +kernel

/-- V25 -/
theorem test_ldw_most_negative :
    valOf (go (start m64 [] 0 [0x80, 0, 0, 0, 0, 0, 0, 0]) 0x15000000) 4 = some (-0x8000000000000000) := by
  decide +kernel

/-- V27 -/
theorem test_ldw_four_bytes :
    valOf (go (start m32 [] 0 [0x80, 0, 0, 0, 0x12]) 0x15000000) 4 = some (-0x80000000) := by
  decide +kernel

/-- V30 -/
theorem test_ldh_invalid_digit :
    valOf (go (start m64 [] 0x40 [0x31, 0x47, 0x32, 0x46]) 0x18410010) 1 = some (0x102F) := by
  decide +kernel

/-- V32 -/
theorem test_ldh_lower_refused :
    valOf (go (start { m64 with hexLowerAccept := false } [] 0x40 [0x66, 0x66]) 0x18410008) 1 = some (0) := by
  decide +kernel

/-- V36 -/
theorem test_sth_pads :
    bytesOf (go (start m64 [(3, 0x29)] 0 []) 0x1C0E0010) 0x80 4 = some [0x30, 0x30, 0x32, 0x39] := by
  decide +kernel

/-- V37 -/
theorem test_sth_uppercase :
    bytesOf (go (start m64 [(3, -0xABC)] 0 []) 0x1C0E000C) 0x80 3 = some [0x41, 0x42, 0x43] := by
  decide +kernel

/-- V43 -/
theorem test_cmpm_ignores_sign :
    srOf (go (start m64 [(1, 3), (2, -5)] 0 []) 0x20048000) = some 0xFFFFFFFFFFFFFFFF := by
  decide +kernel

/-- V45 -/
theorem test_cmpm_limb_count :
    srOf (go (start m64 [(1, 0xFFFFFFFFFFFFFFFF), (2, 0x10000000000000000)] 0 []) 0x20048000) = some 0xFFFFFFFFFFFFFFFF := by
  decide +kernel

/-- V47 -/
theorem test_eq_same :
    srOf (go (start m64 [(1, -3), (2, -3)] 0 []) 0x24048000) = some 1 := by
  decide +kernel

/-- V48 -/
theorem test_eq_sign_counts :
    srOf (go (start m64 [(1, 5), (2, -5)] 0 []) 0x24048000) = some 0 := by
  decide +kernel

/-- V50 -/
theorem test_isz :
    srOf (go (start m64 [(1, -1)] 0 []) 0x28040000) = some 0 := by
  decide +kernel

/-- V51 -/
theorem test_isodd :
    srOf (go (start m64 [(1, -3)] 0 []) 0x2C040000) = some 1 := by
  decide +kernel

/-- V53 -/
theorem test_isneg :
    srOf (go (start m64 [(1, -3)] 0 []) 0x30040000) = some 1 := by
  decide +kernel

/-- V54 -/
theorem test_isneg_zero :
    srOf (go (start m64 [(1, 0)] 0 []) 0x30040000) = some 0 := by
  decide +kernel

/-- V56 -/
theorem test_add_new_limb :
    valOf (go (start m64 [(1, 0xFFFFFFFFFFFFFFFF), (2, 1)] 0 []) 0x40C48000) 3 = some (0x10000000000000000) := by
  decide +kernel

/-- V59 -/
theorem test_add_signs_differ :
    valOf (go (start m64 [(1, 3), (2, -5)] 0 []) 0x40C48000) 3 = some (-2) := by
  decide +kernel

/-- V66 -/
theorem test_sub_borrow :
    valOf (go (start m64 [(1, 0x10000000000000000), (2, 1)] 0 []) 0x44C48000) 3 = some (0xFFFFFFFFFFFFFFFF) := by
  decide +kernel

/-- V68 -/
theorem test_sub_from_zero :
    valOf (go (start m64 [(1, 0), (2, -4)] 0 []) 0x44C48000) 3 = some (4) := by
  decide +kernel

/-- V73 -/
theorem test_mul_negative :
    valOf (go (start m64 [(1, -6), (2, -7)] 0 []) 0x60C48000) 3 = some (0x2A) := by
  decide +kernel

/-- V74 -/
theorem test_mul_two_limbs :
    valOf (go (start m64 [(1, 0xFFFFFFFFFFFFFFFF), (2, 0xFFFFFFFFFFFFFFFF)] 0 []) 0x60C48000) 3 =
        some (0xFFFFFFFFFFFFFFFE0000000000000001) := by
  decide +kernel

/-- V80 -/
theorem test_div_truncates :
    valOf (go (start m64 [(1, -7), (2, 2)] 0 []) 0x64C48000) 3 = some (-3) := by
  decide +kernel

/-- V82 -/
theorem test_div_negative :
    valOf (go (start m64 [(1, -7), (2, -2)] 0 []) 0x64C48000) 3 = some (3) := by
  decide +kernel

/-- V91 -/
theorem test_modmul_canonical :
    valOf (go (start m64 [(1, -3), (2, 4), (4, 11)] 0 []) 0x68C49000) 3 = some (10) := by
  decide +kernel

/-- V97 -/
theorem test_modmul_alias :
    valOf (go (start m64 [(1, 5), (2, 6), (4, 7)] 0 []) 0x69049000) 4 = some (2) := by
  decide +kernel

/-- V100 -/
theorem test_modred_multiple :
    valOf (go (start m64 [(1, -10), (4, 5)] 0 []) 0x80401000) 1 = some (0) := by
  decide +kernel

/-- V106 -/
theorem test_modred_alias :
    valOf (go (start m64 [(4, 5)] 0 []) 0x81001000) 4 = some (0) := by
  decide +kernel

/-- V108 -/
theorem test_modinv_negative :
    valOf (go (start m64 [(1, -3), (4, 11)] 0 []) 0x84C41000) 3 = some (-4) := by
  decide +kernel

/-- V111 -/
theorem test_modinv_large :
    valOf (go (start m64 [(1, 25), (4, 11)] 0 []) 0x84C41000) 3 = some (4) := by
  decide +kernel

/-- V120 -/
theorem test_blen_zero :
    srOf (go (start m64 [(1, 0)] 0 []) 0xA0040000) = some 0 := by
  decide +kernel

/-- V121 -/
theorem test_blen_negative :
    srOf (go (start m64 [(1, -22)] 0 []) 0xA0040000) = some 5 := by
  decide +kernel

/-- V125 -/
theorem test_getbit_second_limb :
    srOf (go (start m64 [(1, -0x10000000000000000)] 0 []) 0xA4040040) = some 1 := by
  decide +kernel

/-- V124 -/
theorem test_getbit_beyond :
    srOf (go (start m64 [(1, 22)] 0 []) 0xA4041388) = some 0 := by
  decide +kernel

/-- V127 -/
theorem test_getbits_across :
    srOf (go (start m64 [(1, 0x18000000000000000)] 0 []) 0xA804103F) = some 3 := by
  decide +kernel

/-- V128 -/
theorem test_getbits_width :
    srOf (go (start m64 [(1, -0xFFFFFFFFFFFFFFFF)] 0 []) 0xA8060000) = some 0xFFFFFFFFFFFFFFFF := by
  decide +kernel

/-- V135 -/
theorem test_shr_trims :
    srOf (go (start m64 [(1, 0x10000000000000003)] 0 []) 0xAC40003F) = some 3 ∧
        valOf (go (start m64 [(1, 0x10000000000000003)] 0 []) 0xAC40003F) 1 = some (2) := by
  decide +kernel

/-- V139 -/
theorem test_shr_to_zero :
    srOf (go (start m64 [(1, -1)] 0 []) 0xAC400001) = some 1 ∧
        valOf (go (start m64 [(1, -1)] 0 []) 0xAC400001) 1 = some (0) := by
  decide +kernel

/-- V141 -/
theorem test_inc_negative :
    valOf (go (start m64 [(1, -5)] 0 []) 0xB0400000) 1 = some (-6) := by
  decide +kernel

/-- V142 -/
theorem test_inc_carry :
    valOf (go (start m64 [(1, 0xFFFFFFFFFFFFFFFF)] 0 []) 0xB0400000) 1 = some (0x10000000000000000) := by
  decide +kernel

/-- V145 -/
theorem test_neg :
    valOf (go (start m64 [(1, 7)] 0 []) 0xB4400000) 1 = some (-7) := by
  decide +kernel

/-- V147 -/
theorem test_neg_zero :
    valOf (go (start m64 [(1, 0)] 0 []) 0xB4400000) 1 = some (0) := by
  decide +kernel

/-- V149 -/
theorem test_split_negative :
    valOf (go (start m64 [(1, -22)] 0 []) 0xB884C002) 2 = some (-2) ∧
        valOf (go (start m64 [(1, -22)] 0 []) 0xB884C002) 3 = some (-5) := by
  decide +kernel

/-- V153 -/
theorem test_split_alias_source :
    valOf (go (start m64 [(1, 0x10000000000000005)] 0 []) 0xB844C040) 1 = some (5) ∧
        valOf (go (start m64 [(1, 0x10000000000000005)] 0 []) 0xB844C040) 3 = some (1) := by
  decide +kernel

/-- V85: STATUS, FCMD and CCNT after a fault. -/
theorem test_fault_status :
    statusOf (go (start m64 [(1, 5)] 0 []) 0x64C48000) = some (0x00400801, 0x64C48000, 0) := by decide +kernel

/-- V3: STATUS and FCMD after an illegal word. -/
theorem test_illegal_status :
    statusOf (go (start m64 [(1, 1), (2, 2)] 0 []) 0x40C48001) = some (0x00400101, 0x40C48001, 0) := by decide +kernel

/-- The word is the first thing a machine just reset runs. -/
theorem test_first_word : statusOf (go State.reset 0x04400000) = some (0x00400000, 0, 1) := by decide +kernel

/-! ## Witnesses

For each statement with hypotheses: states and operands that meet them, a clause each at a boundary, with what the spec gives
there. -/

/-- V14 to V18. -/
theorem witness_LdbReadsBigEndianBytes :
    (255 < 256 ∧ 255 < 256) ∧
    ((0 = 0 ∨ 64 < 0) ∧ faultOf (exec (.ldb 1 0 0) (start m64 [] 0 [])) = some .bytesLen) ∧
    ((65 = 0 ∨ 64 < 65) ∧ faultOf (exec (.ldb 1 255 65) (start m64 [] 0 [])) = some .bytesLen) ∧
    ((1 ≤ 2 ∧ 2 ≤ 64 ∧ 256 < 255 + 2) ∧ faultOf (exec (.ldb 1 255 2) (start m64 [] 0 [])) = some .bufRange) ∧
    ((1 ≤ 1 ∧ 1 ≤ 64 ∧ 255 + 1 ≤ 256) ∧ valOf (exec (.ldb 1 255 1) (start m64 [] 255 [0x80])) 1 = some (0x80)) := by
  decide +kernel

/-- V20, V21, V23. -/
theorem witness_StbWritesBigEndianBytes :
    ((65 = 0 ∨ 64 < 65) ∧ faultOf (exec (.stb 2 0 65) (start m64 [] 0 [])) = some .bytesLen) ∧
    ((1 ≤ 2 ∧ 2 ≤ 64 ∧ 256 < 255 + 2) ∧ faultOf (exec (.stb 2 255 2) (start m64 [(2, 0x1234)] 0 [])) = some .bufRange) ∧
    ((1 ≤ 1 ∧ 1 ≤ 64 ∧ 32 + 1 ≤ 256 ∧ 256 ^ 1 ≤ State.mag (start m64 [(2, 0x1234)] 0 []) 2) ∧
        faultOf (exec (.stb 2 32 1) (start m64 [(2, 0x1234)] 0 [])) = some .bytesFit) ∧
    ((1 ≤ 2 ∧ 2 ≤ 64 ∧ 254 + 2 ≤ 256 ∧ State.mag (start m64 [(2, 0x1234)] 0 []) 2 < 256 ^ 2) ∧
        bytesOf (exec (.stb 2 254 2) (start m64 [(2, 0x1234)] 0 [])) 254 2 = some [0x12, 0x34]) := by
  decide +kernel

/-- V24, V28, V29. -/
theorem witness_LdwReadsASignedWord :
    (256 < 249 + m64.width / 8 ∧ faultOf (exec (.ldw 4 249) (start m64 [] 0 [])) = some .bufRange) ∧
    (252 + m32.width / 8 ≤ 256 ∧ valOf (exec (.ldw 4 252) (start m32 [] 252 [0, 0, 0, 5])) 4 = some (5)) ∧
    (248 + m64.width / 8 ≤ 256 ∧
        valOf (exec (.ldw 4 248) (start m64 [] 248 [255, 255, 255, 255, 255, 255, 255, 255])) 4 = some (-1)) := by
  decide +kernel

/-- A byte of each clause, at its ends (41_transfer.md R127). -/
theorem witness_HexDigitValues :
    hexVal m64 0x30 = 0 ∧
    hexVal m64 0x39 = 9 ∧
    hexVal m64 0x3A = 0 ∧
    hexVal m64 0x40 = 0 ∧
    hexVal m64 0x41 = 10 ∧
    hexVal m64 0x46 = 15 ∧
    hexVal m64 0x47 = 0 ∧
    hexVal m64 0x60 = 0 ∧
    hexVal m64 0x61 = 10 ∧
    hexVal m64 0x66 = 15 ∧
    hexVal m64 0x67 = 0 ∧
    hexVal { m64 with hexLowerAccept := false } 0x66 = 0 := by
  decide

/-- V31, V35. -/
theorem witness_LdhReadsHexText :
    ((129 = 0 ∨ 128 < 129) ∧ faultOf (exec (.ldh 1 0 129) (start m64 [] 0 [])) = some .hexLen) ∧
    ((1 ≤ 128 ∧ 128 ≤ 128 ∧ 256 < 129 + 128) ∧ faultOf (exec (.ldh 1 129 128) (start m64 [] 0 [])) = some .bufRange) ∧
    ((1 ≤ 2 ∧ 2 ≤ 128 ∧ 254 + 2 ≤ 256) ∧ valOf (exec (.ldh 1 254 2) (start m64 [] 254 [0x66, 0x66])) 1 = some (255)) := by
  decide +kernel

/-- V37 to V39. -/
theorem witness_SthWritesHexText :
    ((0 = 0 ∨ 128 < 0) ∧ faultOf (exec (.sth 3 128 0) (start m64 [] 0 [])) = some .hexLen) ∧
    ((1 ≤ 1 ∧ 1 ≤ 128 ∧ 256 < 256 + 1) ∧ faultOf (exec (.sth 3 256 1) (start m64 [] 0 [])) = some .bufRange) ∧
    ((1 ≤ 3 ∧ 3 ≤ 128 ∧ 128 + 3 ≤ 256 ∧ 16 ^ 3 ≤ State.mag (start m64 [(3, 4096)] 0 []) 3) ∧
        faultOf (exec (.sth 3 128 3) (start m64 [(3, 4096)] 0 [])) = some .hexFit) ∧
    ((1 ≤ 3 ∧ 3 ≤ 128 ∧ 253 + 3 ≤ 256 ∧ State.mag (start m64 [(3, 0xABC)] 0 []) 3 < 16 ^ 3) ∧
        bytesOf (exec (.sth 3 253 3) (start m64 [(3, 0xABC)] 0 [])) 253 3 = some [0x41, 0x42, 0x43]) := by
  decide +kernel

/-- The hypotheses of BytesRoundTrip. -/
theorem witness_BytesRoundTrip :
    1 ≤ 2 ∧
    2 ≤ 64 ∧
    254 + 2 ≤ 256 ∧
    0 ≤ State.num (start m64 [(2, 0xFFFF)] 0 []) 2 ∧
    State.mag (start m64 [(2, 0xFFFF)] 0 []) 2 < 256 ^ 2 := by
  decide +kernel

/-- The hypotheses of HexRoundTrip. -/
theorem witness_HexRoundTrip :
    1 ≤ 2 ∧
    2 ≤ 128 ∧
    254 + 2 ≤ 256 ∧
    0 ≤ State.num (start m64 [(2, 0xFF)] 0 []) 2 ∧
    State.mag (start m64 [(2, 0xFF)] 0 []) 2 < 16 ^ 2 := by
  decide +kernel

/-- V63 and its neighbour. -/
theorem witness_AddWritesTheExactSum :
    (m64.cap < limbs m64 (State.num (start m64 [(1, 2 ^ 1088 - 1), (2, 1)] 0 []) 1 + State.num (start m64 [(1, 2 ^ 1088 - 1), (2, 1)] 0 []) 2).natAbs ∧ faultOf (exec (.add 3 1 2) (start m64 [(1, 2 ^ 1088 - 1), (2, 1)] 0 [])) = some .capacity) ∧
    (limbs m64 (State.num (start m64 [(1, 2 ^ 1088 - 1), (2, -1)] 0 []) 1 + State.num (start m64 [(1, 2 ^ 1088 - 1), (2, -1)] 0 []) 2).natAbs ≤ m64.cap ∧ valOf (exec (.add 3 1 2) (start m64 [(1, 2 ^ 1088 - 1), (2, -1)] 0 [])) 3 = some (2 ^ 1088 - 2)) := by
  decide +kernel

/-- V70 and its neighbour. -/
theorem witness_SubWritesTheExactDifference :
    (m64.cap < limbs m64 (State.num (start m64 [(1, 2 ^ 1088 - 1), (2, -1)] 0 []) 1 - State.num (start m64 [(1, 2 ^ 1088 - 1), (2, -1)] 0 []) 2).natAbs ∧ faultOf (exec (.sub 3 1 2) (start m64 [(1, 2 ^ 1088 - 1), (2, -1)] 0 [])) = some .capacity) ∧
    (limbs m64 (State.num (start m64 [(1, 2 ^ 1088 - 1), (2, 1)] 0 []) 1 - State.num (start m64 [(1, 2 ^ 1088 - 1), (2, 1)] 0 []) 2).natAbs ≤ m64.cap ∧ valOf (exec (.sub 3 1 2) (start m64 [(1, 2 ^ 1088 - 1), (2, 1)] 0 [])) 3 = some (2 ^ 1088 - 2)) := by
  decide +kernel

/-- The invariant holds in the states of the two overflows (AddWritesTheExactSum, SubWritesTheExactDifference), and the conclusions of
their last clauses are those of 43_additive.md R172 and R173. -/
theorem witness_AdditiveOverflow :
    State.Inv (start m64 [(1, 2 ^ 1088 - 1), (2, 1)] 0 []) ∧ State.Inv (start m64 [(1, 2 ^ 1088 - 1), (2, -1)] 0 []) ∧
      State.len (start m64 [(1, 2 ^ 1088 - 1), (2, 1)] 0 []) 1 = m64.cap := by
  refine ⟨⟨?_, ?_, ?_, ?_, ?_, ?_⟩, ⟨?_, ?_, ?_, ?_, ?_, ?_⟩, ?_⟩
  · unfold FitsRegister; decide +kernel
  any_goals decide +kernel
  unfold FitsRegister; decide +kernel

/-- The hypotheses of SubUndoesAdd. -/
theorem witness_SubUndoesAdd :
    State.Inv (start m64 [(1, -3), (2, 5)] 0 []) ∧ (3 : Reg) ≠ 2 ∧
      limbs m64 (State.num (start m64 [(1, -3), (2, 5)] 0 []) 1 + State.num (start m64 [(1, -3), (2, 5)] 0 []) 2).natAbs ≤ m64.cap := by
  refine ⟨⟨?_, ?_, ?_, ?_, ?_, ?_⟩, ?_, ?_⟩
  · unfold FitsRegister; decide +kernel
  all_goals decide +kernel

/-- The hypotheses of LimbAdderComputesTheSum: a carry into a new limb, and a difference that loses one. -/
theorem witness_LimbAdderComputesTheSum :
    2 = max (limbs m64 0x10000000000000000) (limbs m64 1) ∧ 1 ≤ 0x10000000000000000 ∧
      trimLimbs (rippleSub m64 (limbList m64 0x10000000000000000 2) (limbList m64 1 2) 0) = [0xFFFFFFFFFFFFFFFF] ∧
      rippleAdd m64 [0xFFFFFFFFFFFFFFFF] [1] 0 = [0, 1] := by
  decide +kernel

/-- The hypotheses of NoCommandRaisesMagSub. -/
theorem witness_NoCommandRaisesMagSub :
    (∃ t, exec (.sub 3 1 2) (start m64 [(1, 3), (2, 10)] 0 []) = .next t) ∧
      (start m64 [(1, 3), (2, 10)] 0 []).fault ≠ some .magSub := by
  obtain ⟨t, ht, -⟩ := exec_cases (.sub 3 1 2) (start m64 [(1, 3), (2, 10)] 0 [])
  exact ⟨⟨t, ht⟩, by decide +kernel⟩

/-- V75, V77, V78. -/
theorem witness_MulWritesTheProduct :
    (State.num (start m64 [(1, 2 ^ 512), (2, 2 ^ 512)] 0 []) 1 ≠ 0 ∧
        State.num (start m64 [(1, 2 ^ 512), (2, 2 ^ 512)] 0 []) 2 ≠ 0 ∧
        m64.cap < State.len (start m64 [(1, 2 ^ 512), (2, 2 ^ 512)] 0 []) 1 + State.len (start m64 [(1, 2 ^ 512), (2, 2 ^ 512)] 0 []) 2 ∧ faultOf (exec (.mul 3 1 2) (start m64 [(1, 2 ^ 512), (2, 2 ^ 512)] 0 [])) = some .capacity) ∧
    (State.len (start m64 [(1, 2 ^ 512), (2, 2 ^ 512 - 1)] 0 []) 1 + State.len (start m64 [(1, 2 ^ 512), (2, 2 ^ 512 - 1)] 0 []) 2 ≤ m64.cap ∧ valOf (exec (.mul 3 1 2) (start m64 [(1, 2 ^ 512), (2, 2 ^ 512 - 1)] 0 [])) 3 = some (2 ^ 1024 - 2 ^ 512)) ∧
    (State.num (start m64 [(2, -(2 ^ 1088 - 1))] 0 []) 1 = 0 ∧
        valOf (exec (.mul 3 1 2) (start m64 [(2, -(2 ^ 1088 - 1))] 0 [])) 3 = some (0)) := by
  decide +kernel

/-- Both limb counts of a product of non-zero factors. -/
theorem witness_ProductLimbCount :
    (limbs m64 0x8000000000000000 = 1 ∧ limbs m64 (0x8000000000000000 * 2) = 2) ∧
    (limbs m64 3 = 1 ∧ limbs m64 (3 * 5) = 1) := by
  decide +kernel

/-- V84, V85. -/
theorem witness_DivWritesTheTruncatedQuotient :
    (State.num (start m64 [(1, 5)] 0 []) 2 = 0 ∧ faultOf (exec (.div 3 1 2) (start m64 [(1, 5)] 0 [])) = some .divZero) ∧
    (State.num (start m64 [(1, -1), (2, 2)] 0 []) 2 ≠ 0 ∧
        valOf (exec (.div 3 1 2) (start m64 [(1, -1), (2, 2)] 0 [])) 3 = some (0)) := by
  decide +kernel

/-- The hypotheses of DivUndoesMul. -/
theorem witness_DivUndoesMul :
    (3 : Reg) ≠ 2 ∧
    State.num (start m64 [(1, 2 ^ 512), (2, 2 ^ 512 - 1)] 0 []) 2 ≠ 0 ∧
    State.len (start m64 [(1, 2 ^ 512), (2, 2 ^ 512 - 1)] 0 []) 1 + State.len (start m64 [(1, 2 ^ 512), (2, 2 ^ 512 - 1)] 0 []) 2 ≤ m64.cap := by
  decide +kernel

/-- V92, V93, V95 and a modulus of nine limbs. -/
theorem witness_ModmulWritesTheResidue :
    (State.num (start m64 [(1, 3), (2, 4)] 0 []) 4 ≤ 0 ∧
        faultOf (exec (.modmul 3 1 2 4) (start m64 [(1, 3), (2, 4)] 0 [])) = some .modInvalid) ∧
    (m64.maxLimbs < State.len (start m64 [(4, 2 ^ 512)] 0 []) 4 ∧
        faultOf (exec (.modmul 3 1 2 4) (start m64 [(4, 2 ^ 512)] 0 [])) = some .modInvalid) ∧
    (0 < State.num (start m64 [(1, 2 ^ 512), (2, 2 ^ 512), (4, 7)] 0 []) 4 ∧
        State.len (start m64 [(1, 2 ^ 512), (2, 2 ^ 512), (4, 7)] 0 []) 4 ≤ m64.maxLimbs ∧
        State.num (start m64 [(1, 2 ^ 512), (2, 2 ^ 512), (4, 7)] 0 []) 1 ≠ 0 ∧
        State.num (start m64 [(1, 2 ^ 512), (2, 2 ^ 512), (4, 7)] 0 []) 2 ≠ 0 ∧
        m64.cap < State.len (start m64 [(1, 2 ^ 512), (2, 2 ^ 512), (4, 7)] 0 []) 1 + State.len (start m64 [(1, 2 ^ 512), (2, 2 ^ 512), (4, 7)] 0 []) 2 ∧ faultOf (exec (.modmul 3 1 2 4) (start m64 [(1, 2 ^ 512), (2, 2 ^ 512), (4, 7)] 0 [])) = some .capacity) ∧
    (0 < State.num (start m64 [(1, 3), (2, 4), (4, 1)] 0 []) 4 ∧
        State.len (start m64 [(1, 3), (2, 4), (4, 1)] 0 []) 4 ≤ m64.maxLimbs ∧
        State.len (start m64 [(1, 3), (2, 4), (4, 1)] 0 []) 1 + State.len (start m64 [(1, 3), (2, 4), (4, 1)] 0 []) 2 ≤ m64.cap ∧ valOf (exec (.modmul 3 1 2 4) (start m64 [(1, 3), (2, 4), (4, 1)] 0 [])) 3 = some (0)) := by
  decide +kernel

/-- V102, V104, V105. -/
theorem witness_ModredWritesTheResidue :
    (State.num (start m64 [(1, 7)] 0 []) 4 ≤ 0 ∧ faultOf (exec (.modred 1 4) (start m64 [(1, 7)] 0 [])) = some .modInvalid) ∧
    (m64.maxLimbs < State.len (start m64 [(4, 2 ^ 512)] 0 []) 4 ∧
        faultOf (exec (.modred 1 4) (start m64 [(4, 2 ^ 512)] 0 [])) = some .modInvalid) ∧
    (0 < State.num (start m64 [(1, 7), (4, 2 ^ 512 - 1)] 0 []) 4 ∧
        State.len (start m64 [(1, 7), (4, 2 ^ 512 - 1)] 0 []) 4 ≤ m64.maxLimbs ∧
        valOf (exec (.modred 1 4) (start m64 [(1, 7), (4, 2 ^ 512 - 1)] 0 [])) 1 = some (7)) := by
  decide +kernel

/-- V110, V112, V114, V116 and a modulus of nine limbs. -/
theorem witness_ModinvWritesTheInverse :
    (¬State.num (start m64 [(1, 3)] 0 []) 4 ≠ 0 ∧ faultOf (exec (.modinv 3 1 4) (start m64 [(1, 3)] 0 [])) = some .modInvalid) ∧
    (m64.maxLimbs < State.len (start m64 [(4, 2 ^ 512)] 0 []) 4 ∧
        faultOf (exec (.modinv 3 1 4) (start m64 [(4, 2 ^ 512)] 0 [])) = some .modInvalid) ∧
    (State.num (start m64 [(1, 6), (4, 9)] 0 []) 4 ≠ 0 ∧ State.len (start m64 [(1, 6), (4, 9)] 0 []) 4 ≤ m64.maxLimbs ∧
        Nat.gcd (State.mag (start m64 [(1, 6), (4, 9)] 0 []) 1) (State.mag (start m64 [(1, 6), (4, 9)] 0 []) 4) ≠ 1 ∧
        faultOf (exec (.modinv 3 1 4) (start m64 [(1, 6), (4, 9)] 0 [])) = some .notInvertible) ∧
    (State.num (start m64 [(1, 5), (4, 1)] 0 []) 4 ≠ 0 ∧ State.len (start m64 [(1, 5), (4, 1)] 0 []) 4 ≤ m64.maxLimbs ∧
        Nat.gcd (State.mag (start m64 [(1, 5), (4, 1)] 0 []) 1) (State.mag (start m64 [(1, 5), (4, 1)] 0 []) 4) = 1 ∧
        State.mag (start m64 [(1, 5), (4, 1)] 0 []) 4 = 1) ∧
    (State.num (start m64 [(1, -3), (4, -11)] 0 []) 4 ≠ 0 ∧ State.len (start m64 [(1, -3), (4, -11)] 0 []) 4 ≤ m64.maxLimbs ∧
        Nat.gcd (State.mag (start m64 [(1, -3), (4, -11)] 0 []) 1) (State.mag (start m64 [(1, -3), (4, -11)] 0 []) 4) = 1 ∧
        valOf (exec (.modinv 3 1 4) (start m64 [(1, -3), (4, -11)] 0 [])) 3 = some (4)) := by
  decide +kernel

/-- V107, V109, and the law's MODMUL. -/
theorem witness_InverseLaw :
    (State.num (start m64 [(1, 3), (4, 11)] 0 []) 4 ≠ 0 ∧ State.len (start m64 [(1, 3), (4, 11)] 0 []) 4 ≤ m64.maxLimbs ∧
        Nat.gcd (State.mag (start m64 [(1, 3), (4, 11)] 0 []) 1) (State.mag (start m64 [(1, 3), (4, 11)] 0 []) 4) = 1) ∧
    (1 < State.num (start m64 [(1, 3), (4, 11)] 0 []) 4 ∧ (3 : Reg) ≠ 1 ∧ (3 : Reg) ≠ 4 ∧
        valOf (exec (.modinv 3 1 4) (start m64 [(1, 3), (4, 11)] 0 [])) 3 = some (4) ∧
        valOf (exec (.modmul 5 1 3 4) (start m64 [(1, 3), (3, 4), (4, 11)] 0 [])) 5 = some (1)) ∧
    (State.num (start m64 [(1, 3), (4, -11)] 0 []) 4 < 0 ∧
        Nat.gcd (State.mag (start m64 [(1, 3), (4, -11)] 0 []) 1) (State.mag (start m64 [(1, 3), (4, -11)] 0 []) 4) = 1 ∧
        valOf (exec (.modinv 3 1 4) (start m64 [(1, 3), (4, -11)] 0 [])) 3 = some (-4)) := by
  decide +kernel

/-- The hypothesis of BlenAnswersTheBitLength, at the greatest magnitude. -/
theorem witness_BlenAnswersTheBitLength :
    FitsRegister m64 (State.mag (start m64 [(1, 2 ^ 1088 - 1)] 0 []) 1) ∧
      srOf (exec (.blen 1) (start m64 [(1, 2 ^ 1088 - 1)] 0 [])) = some 1088 := by
  unfold FitsRegister; decide +kernel

/-- The hypotheses of GetbitAnswersTheBit. -/
theorem witness_GetbitAnswersTheBit :
    5000 < 16384 ∧
    (m64.width * State.len (start m64 [(1, 22)] 0 []) 1 ≤ 64 ∧
        srOf (exec (.getbit 1 64) (start m64 [(1, 22)] 0 [])) = some 0) := by
  decide +kernel

/-- V130, V131 and a field of W bits. -/
theorem witness_GetbitsAnswersTheField :
    (2000 < 2048 ∧ 64 < 128) ∧
    (m64.width < 65 ∧ faultOf (exec (.getbits 1 0 65) (start m64 [(1, 22)] 0 [])) = some .bitCount) ∧
    (64 ≤ m64.width ∧ srOf (exec (.getbits 1 0 64) (start m64 [(1, 22)] 0 [])) = some 22) ∧
    (m32.width < 33 ∧ faultOf (exec (.getbits 1 0 33) (start m32 [(1, 22)] 0 [])) = some .bitCount) := by
  decide +kernel

/-- V134, V136, V137 and the greatest shift. -/
theorem witness_ShrShiftsTheMagnitude :
    16383 < 16384 ∧
    (m64.width ≤ 64 ∧ faultOf (exec (.shr 1 64) (start m64 [(1, 22)] 0 [])) = some .shiftRange) ∧
    (63 < m64.width ∧ srOf (exec (.shr 1 63) (start m64 [(1, 22)] 0 [])) = some 22) ∧
    (0 < m64.width ∧ valOf (exec (.shr 1 0) (start m64 [(1, 22)] 0 [])) 1 = some (22)) ∧
    (m32.width ≤ 32 ∧ faultOf (exec (.shr 1 32) (start m32 [(1, 22)] 0 [])) = some .shiftRange) := by
  decide +kernel

/-- The hypothesis of the last clause of IncAddsToTheMagnitude, at the one magnitude that overflows. -/
theorem witness_IncOverflow :
    FitsRegister m64 (State.mag (start m64 [(1, 2 ^ 1088 - 1)] 0 []) 1) ∧
      State.mag (start m64 [(1, 2 ^ 1088 - 1)] 0 []) 1 = 2 ^ (m64.width * m64.cap) - 1 := by
  unfold FitsRegister; decide +kernel

/-- V144 and its neighbour. -/
theorem witness_IncAddsToTheMagnitude :
    (m64.cap < limbs m64 (State.mag (start m64 [(1, 2 ^ 1088 - 1)] 0 []) 1 + 1) ∧
        faultOf (exec (.inc 1) (start m64 [(1, 2 ^ 1088 - 1)] 0 [])) = some .capacity) ∧
    (limbs m64 (State.mag (start m64 [(1, 2 ^ 1088 - 2)] 0 []) 1 + 1) ≤ m64.cap ∧
        valOf (exec (.inc 1) (start m64 [(1, 2 ^ 1088 - 2)] 0 [])) 1 = some (2 ^ 1088 - 1)) := by
  decide +kernel

/-- V154, V155 and the least position. -/
theorem witness_SplitCutsTheMagnitude :
    16383 < 16384 ∧
    faultOf (exec (.split 2 2 1 0) (start m64 [(1, 22)] 0 [])) = some .splitAlias ∧
    ((2 : Reg) ≠ 3 ∧ faultOf (exec (.split 2 3 1 0) (start m64 [(1, 22)] 0 [])) = some .splitPos) ∧
    ((2 : Reg) ≠ 3 ∧ 0 < 1 ∧ valOf (exec (.split 2 3 1 1) (start m64 [(1, 22)] 0 [])) 3 = some (11)) := by
  decide +kernel

/-- The hypotheses of StepRunsTheDecodedCommand. -/
theorem witness_StepRunsTheDecodedCommand :
    (State.reset.withFetchWord 32 0x40C48000).fault = none ∧
      (State.reset.withFetchWord 32 0x40C48000).inbox = [.write (0 + 0x000) 32 ((0x40C48000 : Word32).setWidth 64)] ∧
      decode 0x40C48000 = .ok (.add 3 1 2) := by decide +kernel

/-- The hypotheses of ReservedEncodingsAreIllegal: the last reserved opcode of a gap, the first above the last command, and an
unused bit at each end of a field. -/
theorem witness_ReservedEncodingsAreIllegal :
    (0x9FFFFFFF : Word32).toNat / 2 ^ 26 = 0x27 ∧ decode 0x9FFFFFFF = .error .reservedOpcode ∧
      0x2F ≤ (0xBC000000 : Word32).toNat / 2 ^ 26 ∧ decode 0xBC000000 = .error .reservedOpcode ∧
      (0x40C48001 : Word32).toNat / 2 ^ 26 = (rowOf (.add 3 1 2)).2.toNat / 2 ^ 26 ∧
      (0x40C48001 : Word32) &&& (rowOf (.add 3 1 2)).1 ≠ (rowOf (.add 3 1 2)).2 ∧
      decode 0x40C4A000 = .error .unusedFieldNonzero := by decide +kernel

/-- A faulted machine with one access waiting. -/
def faulted (a : HostAccess) : State := (((start m64 [(1, 5)] 0 []).enterFault .divZero 0x64C48000)).setInbox [a]

/-- A machine with one access waiting. -/
def facing (a : HostAccess) : State := (start m64 [(1, 5)] 0 [0x7F]).setInbox [a]

/-- The hypotheses of FaultedCoreDiscards: LOST is set and FCMD stays (60_exceptions.md R270). -/
theorem witness_FaultedCoreDiscards :
    repliesOf (step (faulted (.read 0x1004 32))) = [0x00400801] ∧ portOf m64 0x1004 = some .status ∧
      bytesOf (step (faulted (.write (0x1000 + 0x100 + 255) 8 0x5A))) 255 1 = some [0x5A] ∧
      (faulted (cmdWrite m64 0xB0400000)).fault ≠ none ∧
      (faulted (cmdWrite m64 0xB0400000)).inbox = [.write (0x1000 + 0x000) 32 ((0xB0400000 : Word32).setWidth 64)] ∧
      statusOf (step (faulted (cmdWrite m64 0xB0400000))) = some (0x00400803, 0x64C48000, 0) := by decide +kernel

/-- The hypotheses of CtrlResetsTheCore: every clause. -/
theorem witness_CtrlResetsTheCore :
    repliesOf (step (faulted (.read (0x1000 + 0x00C) 32))) = [0] ∧
    ((2 : Word64).getLsbD 0 = false ∧ faultOf (step (faulted (.write (0x1000 + 0x00C) 32 2))) = some .divZero) ∧
      ((3 : Word64).getLsbD 0 = true ∧ statusOf (step (faulted (.write (0x1000 + 0x00C) 32 3))) = some (0x00400000, 0, 0) ∧
        valOf (step (faulted (.write (0x1000 + 0x00C) 32 3))) 1 = some 0) := by decide +kernel

/-- The hypotheses of HostReadsTheWindow: every register, BUF at both ends. -/
theorem witness_HostReadsTheWindow :
    repliesOf (step (facing (.read (0x1000 + 0x000) 32))) = [0] ∧
    repliesOf (step (facing (.read (0x1000 + 0x004) 32))) = [0x00400000] ∧
    repliesOf (step (faulted (.read (0x1000 + 0x008) 32))) = [0x64C48000] ∧
    repliesOf (step (facing (.read (0x1000 + 0x00C) 32))) = [0] ∧
    repliesOf (step (facing (.read (0x1000 + 0x010) 64))) = [0] ∧
    repliesOf (step (facing (.read (0x1000 + 0x018) 64))) = [0] ∧
    repliesOf (step (facing (.read (0x1000 + 0x100) 8))) = [0x7F] ∧
    repliesOf (step ((start m32 [] 255 [0x80]).setInbox [.read (0x1000 + 0x1FF) 8])) = [0x80] ∧
    repliesOf (step ((start m32 [] 0 []).setInbox [.read (0x1000 + 0x010) 32])) = [0] := by decide +kernel

/-- The hypotheses of HostWritesTheWindow: a read-only register, and BUF at both ends. -/
theorem witness_HostWritesTheWindow :
    statusOf (step (facing (.write (0x1000 + 0x004) 32 0xFF))) = some (0x00400000, 0, 0) ∧
    srOf (step (facing (.write (0x1000 + 0x010) 64 0xFF))) = some 0 ∧
    (0x100 ≤ 0x100 ∧ 0x100 ≤ 0x1FF ∧ bytesOf (step (facing (.write (0x1000 + 0x100) 8 0x123))) 0 1 = some [0x23]) ∧
    (0x100 ≤ 0x1FF ∧ bytesOf (step (facing (.write (0x1000 + 0x1FF) 8 0x80))) 255 1 = some [0x80]) := by decide +kernel

/-- Whether a step refuses, and why. -/
def refusalOf (r : Result) : Option Refusal := match r with
  | .refused x => some x
  | _ => none

/-- The hypotheses of OtherAccessesAreRefused: addresses below, between and above the registers, and a width of another kind. -/
theorem witness_OtherAccessesAreRefused :
    refusalOf (step (facing (.read 0x0FFF 8))) = some (.hostOffset 0x0FFF) ∧
    refusalOf (step (facing (.read 0x10FF 8))) = some (.hostOffset 0x10FF) ∧
    refusalOf (step (facing (.write 0x1200 8 0))) = some (.hostOffset 0x1200) ∧
    refusalOf (step (facing (.write 0x1000 64 0))) = some (.hostWidth 0x1000 64) ∧
    refusalOf (step (facing (.read 0x1010 32))) = some (.hostWidth 0x1010 32) ∧
    refusalOf (step (facing (.read 0x1018 32))) = some (.hostWidth 0x1018 32) ∧
    refusalOf (step (facing (.read 0x1100 32))) = some (.hostWidth 0x1100 32) := by decide +kernel

/-- The hypothesis of IdleCoreHoldsItsState: right after reset nothing waits. -/
theorem witness_IdleCoreHoldsItsState : State.reset.inbox = [] ∧ statusOf (step State.reset) = some (0x00400000, 0, 0) := by
  decide +kernel

/-- The hypothesis of OnlyNineCommandsWriteSr, OnlyDestinationsAreWritten and OnlyStoresWriteBuf: every command answers a next
state, and a byte outside a store's field. -/
theorem witness_CommandsAnswer :
    (∀ i s, ∃ t, exec i s = .next t) ∧ (31 < 32 ∨ 32 + 4 ≤ 31) ∧ (36 < 32 ∨ 32 + 4 ≤ 36) :=
  ⟨fun i s => (exec_cases i s).imp fun _ h => h.1, by decide, by decide⟩

/-- The hypotheses of ParametersNeverChange and EveryStepKeepsInv: a state with the invariant whose step is a command. -/
theorem witness_EveryStepKeepsInv :
    State.Inv (facing (cmdWrite m64 0xB0400000)) ∧ ∃ t, step (facing (cmdWrite m64 0xB0400000)) = .next t := by
  refine ⟨⟨?_, ?_, ?_, ?_, ?_, ?_⟩, ?_⟩
  · unfold FitsRegister; decide +kernel
  any_goals decide +kernel
  have hd : decode 0xB0400000 = .ok (.inc 1) := by decide
  obtain ⟨t, ht, -⟩ := exec_cases (.inc 1) ((facing (cmdWrite m64 0xB0400000)).setInbox [])
  refine ⟨t, ?_⟩
  rw [step_cmd (facing (cmdWrite m64 0xB0400000)) 0xB0400000 (rest := []) rfl, State.issue, if_neg (by decide), hd]
  exact ht

/-- The hypotheses of FaultIsStickyUntilReset: a write to CTRL with bit 0 clear is no reset. -/
theorem witness_FaultIsStickyUntilReset :
    (faulted (.write (0x1000 + 0x00C) 32 2)).fault = some .divZero ∧
      (∀ a ∈ (faulted (.write (0x1000 + 0x00C) 32 2)).inbox, ¬IsResetWrite m64 a) ∧
      ∃ t, Host.Core.run core 1 (faulted (.write (0x1000 + 0x00C) 32 2)) = .next t := by
  refine ⟨rfl, ?_, ?_⟩
  · intro a ha
    obtain rfl := List.mem_singleton.mp ha
    rintro ⟨-, -, h⟩
    exact absurd h (by decide)
  · have hs : step (faulted (.write (0x1000 + 0x00C) 32 2)) = .next ((faulted (.write (0x1000 + 0x00C) 32 2)).setInbox []) := by
      rw [step_cons _ (rest := []) rfl]; rfl
    exact ⟨_, run_next 0 hs⟩

/-- Two command words waiting: INC N1 twice. -/
def twoCommands : State := (start m64 [(1, 5)] 0 []).setInbox [cmdWrite m64 0xB0400000, cmdWrite m64 0xB0400000]

/-- The hypotheses of CompletedCommandsAreCounted. -/
theorem witness_CompletedCommandsAreCounted :
    twoCommands.fault = none ∧
      twoCommands.inbox =
        ([0xB0400000, 0xB0400000] : List Word32).map (fun w =>
          HostAccess.write twoCommands.cfg.hostBase 32 (w.setWidth 64)) := by
  decide +kernel

/-- The hypothesis of HiddenLimbsAreNotObservable: two registers of value 0 with other words above their limb. -/
theorem witness_HiddenLimbsAreNotObservable :
    SameVisible State.reset (State.reset.setReg 4 { val := 0, tail := .drawn 9 }) ∧
      State.reset ≠ State.reset.setReg 4 { val := 0, tail := .drawn 9 } := by
  refine ⟨⟨rfl, ?_, rfl, rfl, rfl, rfl, rfl, rfl, rfl, rfl, rfl, rfl⟩, ?_⟩ <;> decide +kernel

/-- The hypotheses of DecodeOfEncode and EncodeOfDecode. -/
theorem witness_DecodeOfEncode :
    Instr.WellFormed (.getbits 15 2047 127) = true ∧
        decode (encode (.getbits 15 2047 127)) = .ok (.getbits 15 2047 127) := by decide

/-- The hypotheses of WordsMatchTheOpcodeTable; the all-zero word matches no row (30_encoding.md R101). -/
theorem witness_WordsMatchTheOpcodeTable :
    decode 0x40C48000 = .ok (.add 3 1 2) ∧
      (0x40C48000 : Word32) &&& (rowOf (.add 3 1 2)).1 = (rowOf (.add 3 1 2)).2 ∧
      (0x40C48000 : Word32) &&& (rowOf (.add 0 0 0)).1 = (rowOf (.add 0 0 0)).2 ∧
      (State.reset.withFetchWord 32 0).fault = none ∧
      (State.reset.withFetchWord 32 0).inbox = [.write (0 + 0x000) 32 ((0 : Word32).setWidth 64)] ∧
      (∀ i, (0 : Word32) &&& (rowOf i).1 ≠ (rowOf i).2) ∧
      statusOf (step (State.reset.withFetchWord 32 0)) = some (0x00400101, 0, 0) := by
  refine ⟨by decide, by decide, by decide, by decide, by decide, fun i => ?_, by decide +kernel⟩
  cases i <;> simp only [rowOf] <;> decide

/-- The hypotheses of AssemblerAgreesWithSyntax. -/
theorem witness_AssemblerAgreesWithSyntax :
    assemble .ldb [.reg 1, .imm 255, .imm 1] = some (.ldb 1 255 1) ∧
        assemble .ldb [.reg 1, .imm 256, .imm 1] = none := by decide

end Sys2Proof.Tests
end

section
/-! PROOFS. The encoding of 30_encoding.md: a row's mask as the opcode field and the unused fields, the decoder as the row an
opcode selects, and the assembler on an instruction's own operands. -/

namespace Sys2Proof

/-! ## Fields and masks -/

/-- The mask with a 1 in bits `hi` down to `lo` (00_scope.md R17). -/
def fieldMask (hi lo : Nat) : Word32 := (BitVec.allOnes (hi + 1 - lo)).setWidth 32 <<< lo

theorem getLsbD_fieldMask (hi lo k : Nat) : (fieldMask hi lo).getLsbD k = decide (k < 32 ∧ lo ≤ k ∧ k ≤ hi) := by
  simp only [fieldMask, BitVec.getLsbD_shiftLeft, BitVec.getLsbD_setWidth, BitVec.getLsbD_allOnes]
  grind

theorem testBit_bits (w : Word32) (hi lo k : Nat) :
    (bits w hi lo).testBit k = (decide (k < hi + 1 - lo) && w.getLsbD (lo + k)) := by
  simp only [bits, Nat.testBit_mod_two_pow, Nat.testBit_div_two_pow, BitVec.testBit_toNat, Nat.add_comm]

/-- Two words agree on a field exactly when they agree under its mask. -/
theorem and_fieldMask_eq_iff (w v : Word32) (hi lo : Nat) :
    w &&& fieldMask hi lo = v &&& fieldMask hi lo ↔ bits w hi lo = bits v hi lo := by
  constructor
  · intro h
    refine Nat.eq_of_testBit_eq fun k => ?_
    have hk := congrArg (·.getLsbD (lo + k)) h
    simp only [BitVec.getLsbD_and, getLsbD_fieldMask] at hk
    simp only [testBit_bits]
    grind
  · intro h
    refine BitVec.eq_of_getLsbD_eq fun k hk => ?_
    have hb := congrArg (·.testBit (k - lo)) h
    simp only [testBit_bits] at hb
    simp only [BitVec.getLsbD_and, getLsbD_fieldMask]
    grind

/-- The mask of a list of fields, each given by its highest and lowest bit. -/
def fieldsMask (fs : List (Nat × Nat)) : Word32 := fs.foldr (fun f m => fieldMask f.1 f.2 ||| m) 0

/-- Two words agree under a mask with two parts exactly when they agree under each. -/
theorem and_or_eq_and_or_iff (w v a b : Word32) :
    w &&& (a ||| b) = v &&& (a ||| b) ↔ w &&& a = v &&& a ∧ w &&& b = v &&& b := by
  simp only [BitVec.eq_of_getLsbD_eq_iff, BitVec.getLsbD_and, BitVec.getLsbD_or]
  grind

/-- Two words agree under the mask of a list of fields exactly when they agree on each field. -/
theorem and_fieldsMask_eq_iff (w v : Word32) (fs : List (Nat × Nat)) :
    w &&& fieldsMask fs = v &&& fieldsMask fs ↔ ∀ f ∈ fs, bits w f.1 f.2 = bits v f.1 f.2 := by
  induction fs with
  | nil => simp [fieldsMask]
  | cons f fs ih =>
    have hcons : fieldsMask (f :: fs) = fieldMask f.1 f.2 ||| fieldsMask fs := rfl
    rw [hcons, and_or_eq_and_or_iff, and_fieldMask_eq_iff, ih, List.forall_mem_cons]

/-! ## The rows of the opcode table -/

/-- The fields an instruction does not use, each by its highest and lowest bit (30_encoding.md R98, R99). -/
def unusedFields : Instr → List (Nat × Nat)
  | .zero _ => [(21, 0)]
  | .mov _ _ => [(17, 0)]
  | .ldb _ _ _ => [(21, 18), (1, 0)]
  | .stb _ _ _ => [(25, 22), (1, 0)]
  | .ldw _ _ => [(21, 18), (9, 0)]
  | .ldh _ _ _ => [(21, 18), (1, 0)]
  | .sth _ _ _ => [(25, 22), (1, 0)]
  | .cmpm _ _ => [(25, 22), (13, 0)]
  | .eq _ _ => [(25, 22), (13, 0)]
  | .isz _ => [(25, 22), (17, 0)]
  | .isodd _ => [(25, 22), (17, 0)]
  | .isneg _ => [(25, 22), (17, 0)]
  | .add _ _ _ => [(13, 0)]
  | .sub _ _ _ => [(13, 0)]
  | .mul _ _ _ => [(13, 0)]
  | .div _ _ _ => [(13, 0)]
  | .modmul _ _ _ _ => [(9, 0)]
  | .modred _ _ => [(21, 14), (9, 0)]
  | .modinv _ _ _ => [(17, 14), (9, 0)]
  | .blen _ => [(25, 22), (17, 0)]
  | .getbit _ _ => [(25, 22), (17, 14)]
  | .getbits _ _ _ => [(25, 22)]
  | .shr _ _ => [(21, 14)]
  | .inc _ => [(21, 0)]
  | .neg _ => [(21, 0)]
  | .split _ _ _ _ => []

/-- The opcode of a word (30_encoding.md R91). -/
def opcode (w : Word32) : Nat := bits w 31 26

theorem opcode_eq_div (w : Word32) : opcode w = w.toNat / 2 ^ 26 := by
  simp only [opcode, bits]; omega

/-- A row's mask is the opcode field and the unused fields (30_encoding.md R98). -/
theorem rowOf_mask (i : Instr) : (rowOf i).1 = fieldsMask ((31, 26) :: unusedFields i) := by
  cases i <;> simp only [rowOf, unusedFields] <;> decide

/-- A row's match has its unused fields zero (30_encoding.md R98). -/
theorem bits_rowOf_match (i : Instr) : ∀ f ∈ unusedFields i, bits (rowOf i).2 f.1 f.2 = 0 := by
  cases i <;> simp only [rowOf, unusedFields] <;> decide

/-- A row's match lies under its mask. -/
theorem rowOf_match_and_mask (i : Instr) : (rowOf i).2 &&& (rowOf i).1 = (rowOf i).2 := by
  cases i <;> simp only [rowOf] <;> decide

/-- A word matches a row exactly when it has the row's opcode and its unused fields are zero. -/
theorem matches_row_iff (w : Word32) (i : Instr) :
    w &&& (rowOf i).1 = (rowOf i).2 ↔
      opcode w = opcode (rowOf i).2 ∧ ∀ f ∈ unusedFields i, bits w f.1 f.2 = 0 := by
  have hunused : (∀ f ∈ unusedFields i, bits w f.1 f.2 = bits (rowOf i).2 f.1 f.2) ↔
      ∀ f ∈ unusedFields i, bits w f.1 f.2 = 0 :=
    forall₂_congr fun f hf => by rw [bits_rowOf_match i f hf]
  calc w &&& (rowOf i).1 = (rowOf i).2
      ↔ w &&& (rowOf i).1 = (rowOf i).2 &&& (rowOf i).1 := by rw [rowOf_match_and_mask]
    _ ↔ opcode w = opcode (rowOf i).2 ∧ ∀ f ∈ unusedFields i, bits w f.1 f.2 = bits (rowOf i).2 f.1 f.2 := by
      rw [rowOf_mask, and_fieldsMask_eq_iff, List.forall_mem_cons]; rfl
    _ ↔ _ := and_congr_right fun _ => hunused

/-! ## The decoder as the row an opcode selects -/

/-- A word with a row's opcode is taken for an instruction of that row, accepted when its unused fields are zero. -/
theorem decode_eq_accept_of_opcode {w : Word32} {i : Instr} (h : opcode w = opcode (rowOf i).2) :
    ∃ j, decode w = accept ((unusedFields i).map fun f => bits w f.1 f.2).sum j ∧ rowOf j = rowOf i := by
  have hdec : decode w = decodeFields (opcode (rowOf i).2) w := by rw [← h]; rfl
  cases i <;> simp only [rowOf, opcode_eq_div, BitVec.reduceToNat, Nat.reducePow, Nat.reduceDiv] at hdec <;>
    exact ⟨_, hdec, rfl⟩

/-- The unused bits add up to 0 exactly when every unused field is zero. -/
theorem sum_bits_eq_zero_iff (w : Word32) (fs : List (Nat × Nat)) :
    (fs.map fun f => bits w f.1 f.2).sum = 0 ↔ ∀ f ∈ fs, bits w f.1 f.2 = 0 := by
  rw [List.sum_eq_zero_iff, List.forall_mem_map]

/-- A word that matches a row decodes to an instruction of that row. -/
theorem decode_of_matches_row {w : Word32} {i : Instr} (h : w &&& (rowOf i).1 = (rowOf i).2) :
    ∃ j, decode w = .ok j ∧ rowOf j = rowOf i := by
  obtain ⟨hop, hunused⟩ := (matches_row_iff w i).mp h
  obtain ⟨j, hdec, hrow⟩ := decode_eq_accept_of_opcode hop
  exact ⟨j, by rw [hdec, accept_eq_ok ((sum_bits_eq_zero_iff w _).mpr hunused)], hrow⟩

/-- A word with a row's opcode that does not match the row is illegal, an unused field being non-zero. -/
theorem decode_of_not_matches_row {w : Word32} {i : Instr} (hop : opcode w = opcode (rowOf i).2)
    (h : w &&& (rowOf i).1 ≠ (rowOf i).2) : decode w = .error .unusedFieldNonzero := by
  obtain ⟨j, hdec, -⟩ := decode_eq_accept_of_opcode hop
  rw [hdec, accept, if_neg]
  exact fun hsum => h ((matches_row_iff w i).mpr ⟨hop, (sum_bits_eq_zero_iff w _).mp hsum⟩)

/-- What decodes has the opcode of its instruction's row. -/
theorem opcode_of_decode {w : Word32} {i : Instr} (h : decode w = .ok i) : opcode w = opcode (rowOf i).2 := by
  simp only [decode, decodeFields] at h
  split at h
  on_goal 27 => cases h
  all_goals
    rename_i hop
    obtain ⟨-, rfl⟩ := (accept_eq_ok_iff _ _ _).mp h
    rw [opcode, hop]
    simp only [rowOf]
    decide

/-- What decodes matches its instruction's row. -/
theorem matches_row_of_decode {w : Word32} {i : Instr} (h : decode w = .ok i) : w &&& (rowOf i).1 = (rowOf i).2 := by
  by_contra hne
  rw [decode_of_not_matches_row (opcode_of_decode h) hne] at h
  cases h

/-- An opcode that no command has is illegal, whatever the fields hold (30_encoding.md R101). -/
theorem decodeFields_reserved {op : Nat} (w : Word32)
    (h : op ∈ [0x00, 0x0D, 0x0E, 0x0F, 0x12, 0x13, 0x14, 0x15, 0x16, 0x17, 0x1B, 0x1C, 0x1D, 0x1E, 0x1F, 0x22, 0x23, 0x24, 0x25,
      0x26, 0x27] ∨ 0x2F ≤ op) : decodeFields op w = .error .reservedOpcode := by
  unfold decodeFields
  split
  on_goal 27 => rfl
  all_goals exact absurd h (by decide)

namespace Machine

/-- A word that matches no row, issued while FAULT is 0, raises ILLEGAL_COMMAND (30_encoding.md R100). -/
theorem issue_of_no_row {s : State} {w : Word32} (hs : s.fault = none) (hw : ∀ i, w &&& (rowOf i).1 ≠ (rowOf i).2) :
    s.issue w = s.raise .illegalCommand w := by
  rw [State.issue, if_neg (by simp [hs])]
  cases hd : decode w with
  | ok i => exact absurd (matches_row_of_decode hd) (hw i)
  | error e => rfl

/-! ## The assembler -/

/-- What assembles is what the mnemonic stands for, when its immediates fit (30_encoding.md R104). -/
theorem assemble_eq_some_iff (n : AsmName) (ops : List AsmOperand) (i : Instr) :
    assemble n ops = some i ↔ asmInstr n ops = some i ∧ i.WellFormed = true := Option.filter_eq_some_iff

/-- An instruction's own mnemonic and operands stand for it. -/
theorem asmInstr_disassemble (i : Instr) : asmInstr (disassemble i).1 (disassemble i).2 = some i := by
  cases i <;> rfl

end Machine

end Sys2Proof

open Sys2Proof Sys2Proof.Machine

/-- Settles O37: a row's mask is the opcode field and the unused fields, so a word matches the row that its opcode selects or
none. -/
theorem wordsMatchTheOpcodeTable : Obligations.WordsMatchTheOpcodeTable := by
  refine ⟨fun _ _ => matches_row_of_decode, fun _ _ => decode_of_matches_row, fun w i j hi hj => ?_,
    fun s w rest hs hin hw => ?_⟩
  · obtain ⟨i', hi', hri⟩ := decode_of_matches_row hi
    obtain ⟨j', hj', hrj⟩ := decode_of_matches_row hj
    obtain rfl : i' = j' := Except.ok.inj (hi'.symm.trans hj')
    exact hri.symm.trans hrj
  · rw [step_cmd s w hin]
    exact issue_of_no_row (s := s.setInbox rest) hs hw

/-- Settles O38: no arm of the decoder has a reserved opcode, and a row's opcode without its mask's zeros is refused. -/
theorem reservedEncodingsAreIllegal : Obligations.ReservedEncodingsAreIllegal := by
  intro w
  simp only [← opcode_eq_div]
  exact ⟨decodeFields_reserved w, fun _ => decode_of_not_matches_row⟩

/-- Settles O59: each of the seven words is decoded by evaluation. -/
theorem knownWordsDecode : Obligations.KnownWordsDecode := by
  refine ⟨?_, ?_, ?_, ?_, ?_, ?_, ?_⟩ <;> decide

/-- Settles O60, the pseudo-instructions by evaluation: none has an immediate. -/
theorem assemblerAgreesWithSyntax : Obligations.AssemblerAgreesWithSyntax := by
  refine ⟨fun i hwf => ?_, fun n ops i h => ?_, fun d a b c => ⟨rfl, rfl, rfl, rfl, rfl⟩⟩
  · exact (assemble_eq_some_iff _ _ i).mpr ⟨asmInstr_disassemble i, hwf⟩
  · exact ((assemble_eq_some_iff n ops i).mp h).2
end

section
/-! PROOFS. The transfer commands of 41_transfer.md: the words of the four formats read back, the frames of a register write and
of a store, what each transfer answers, and the two round trips between a number and its bytes or hex digits. -/

namespace Sys2Proof

/-! ## Words read back (30_encoding.md R92-R96) -/

/-- What the decoder reads from a word of format R. -/
theorem encodeR_fields {op rd ra rb rc : Nat} (hop : op < 64) (hrd : rd < 16) (hra : ra < 16) (hrb : rb < 16)
    (hrc : rc < 16) :
    let w := encodeR op rd ra rb rc
    decode w = decodeFields op w ∧ regField w 22 = ⟨rd, hrd⟩ ∧ regField w 18 = ⟨ra, hra⟩ ∧ regField w 14 = ⟨rb, hrb⟩ ∧
      regField w 10 = ⟨rc, hrc⟩ ∧ bits w 25 22 = rd ∧ bits w 21 0 = ra * 2 ^ 18 + rb * 2 ^ 14 + rc * 2 ^ 10 ∧
      bits w 21 14 = ra * 2 ^ 4 + rb ∧ bits w 17 14 = rb ∧ bits w 17 0 = rb * 2 ^ 14 + rc * 2 ^ 10 ∧
      bits w 13 0 = rc * 2 ^ 10 ∧ bits w 9 0 = 0 := by
  have hw : encodeR op rd ra rb rc =
      BitVec.ofNat 32 (op * 2 ^ 26 + (rd * 2 ^ 22 + ra * 2 ^ 18 + rb * 2 ^ 14 + rc * 2 ^ 10)) := by
    simp only [encodeR, Nat.add_assoc]
  refine ⟨by rw [hw]; exact decode_word op _ hop (by omega), ?_⟩
  simp only [regField, bits, encodeR, BitVec.toNat_ofNat, Fin.mk.injEq]
  omega

/-- What the decoder reads from a word of format M. -/
theorem encodeM_fields {op rd ra addr len : Nat} (hop : op < 64) (hrd : rd < 16) (hra : ra < 16) (haddr : addr < 256)
    (hlen : len < 256) :
    let w := encodeM op rd ra addr len
    decode w = decodeFields op w ∧ regField w 22 = ⟨rd, hrd⟩ ∧ regField w 18 = ⟨ra, hra⟩ ∧ bits w 25 22 = rd ∧
      bits w 21 18 = ra ∧ bits w 17 10 = addr ∧ bits w 9 2 = len ∧ bits w 9 0 = len * 2 ^ 2 ∧ bits w 1 0 = 0 := by
  have hw : encodeM op rd ra addr len =
      BitVec.ofNat 32 (op * 2 ^ 26 + (rd * 2 ^ 22 + ra * 2 ^ 18 + addr * 2 ^ 10 + len * 2 ^ 2)) := by
    simp only [encodeM, Nat.add_assoc]
  refine ⟨by rw [hw]; exact decode_word op _ hop (by omega), ?_⟩
  simp only [regField, bits, encodeM, BitVec.toNat_ofNat, Fin.mk.injEq]
  omega

/-- What the decoder reads from a word of format B. -/
theorem encodeB_fields {op rd ra rb imm : Nat} (hop : op < 64) (hrd : rd < 16) (hra : ra < 16) (hrb : rb < 16)
    (himm : imm < 16384) :
    let w := encodeB op rd ra rb imm
    decode w = decodeFields op w ∧ regField w 22 = ⟨rd, hrd⟩ ∧ regField w 18 = ⟨ra, hra⟩ ∧ regField w 14 = ⟨rb, hrb⟩ ∧
      bits w 25 22 = rd ∧ bits w 21 14 = ra * 2 ^ 4 + rb ∧ bits w 17 14 = rb ∧ bits w 13 0 = imm := by
  have hw : encodeB op rd ra rb imm =
      BitVec.ofNat 32 (op * 2 ^ 26 + (rd * 2 ^ 22 + ra * 2 ^ 18 + rb * 2 ^ 14 + imm)) := by
    simp only [encodeB, Nat.add_assoc]
  refine ⟨by rw [hw]; exact decode_word op _ hop (by omega), ?_⟩
  simp only [regField, bits, encodeB, BitVec.toNat_ofNat, Fin.mk.injEq]
  omega

/-- What the decoder reads from a word of format G. -/
theorem encodeG_fields {op ra cnt off : Nat} (hop : op < 64) (hra : ra < 16) (hcnt : cnt < 128) (hoff : off < 2048) :
    let w := encodeG op ra cnt off
    decode w = decodeFields op w ∧ regField w 18 = ⟨ra, hra⟩ ∧ bits w 25 22 = 0 ∧ bits w 17 11 = cnt ∧
      bits w 10 0 = off := by
  have hw : encodeG op ra cnt off = BitVec.ofNat 32 (op * 2 ^ 26 + (ra * 2 ^ 18 + cnt * 2 ^ 11 + off)) := by
    simp only [encodeG, Nat.add_assoc]
  refine ⟨by rw [hw]; exact decode_word op _ hop (by omega), ?_⟩
  simp only [regField, bits, encodeG, BitVec.toNat_ofNat, Fin.mk.injEq]
  omega

/-- The word of a well-formed instruction decodes to it: each format's fields are read back, the unused ones as zero. -/
theorem decode_encode {i : Instr} (h : i.WellFormed = true) : decode (encode i) = .ok i := by
  cases i <;> simp only [Instr.WellFormed, decide_eq_true_eq] at h <;>
    simp [encode, encodeR_fields, encodeM_fields, encodeB_fields, encodeG_fields, decodeFields, accept, h]

/-- A word written out from its format decodes to its instruction. -/
theorem decode_eq_ok_of_eq_encode {w : Word32} {i : Instr} (hw : w = encode i) (h : i.WellFormed = true) :
    decode w = .ok i := hw ▸ decode_encode h

namespace Machine

/-! ## Frames -/

/-- The frame of a command that writes one number register and completes. -/
theorem regFrame_writeNum (s : State) (rd : Reg) (v : Int) : RegFrame [rd] s (s.writeNum rd v).count where
  ccnt := rfl
  control := ⟨rfl, rfl, rfl, rfl, rfl, rfl, rfl⟩
  sr := rfl
  buf _ := rfl
  regs r hr := (State.num_writeNum s rd r v).trans (if_neg (by simpa using hr))

/-- The frame of a command that clears one number register and completes. -/
theorem regFrame_zeroize (s : State) (rd : Reg) : RegFrame [rd] s (s.zeroize rd).count where
  ccnt := rfl
  control := ⟨rfl, rfl, rfl, rfl, rfl, rfl, rfl⟩
  sr := rfl
  buf _ := rfl
  regs r hr := (State.num_zeroize s rd r).trans (if_neg (by simpa using hr))

/-- A cleared register has every limb 0, those above its limb count too (41_transfer.md R120). -/
theorem limb_zeroize (s : State) (rd : Reg) (k : Nat) : (s.zeroize rd).limb rd k = 0 := by
  have hreg : (s.zeroize rd).regs[rd] = NumReg.cleared := by rw [State.zeroize_regs, regs_set_get, if_pos rfl]
  have hmag : (s.zeroize rd).mag rd = 0 := by rw [State.mag, State.num_zeroize, if_pos rfl, Int.natAbs_zero]
  rw [State.limb, hreg, hmag]
  split
  · simp [limbOf]
  · rfl

/-- Counting a command leaves BUF as it is. -/
theorem readByte_count (s : State) (a : Nat) : s.count.readByte a = s.readByte a := rfl

/-- A byte of the field after a transfer. -/
theorem readByte_memWrite_add (s : State) (addr : Nat) (bs : List Byte) {j : Nat} (hj : j < bs.length) :
    (s.memWrite addr bs).readByte (addr + j) = bs[j] := by
  rw [State.readByte_memWrite, if_pos (Nat.le_add_right _ _), Nat.add_sub_cancel_left, List.getElem?_eq_getElem hj,
    Option.getD_some]

/-- A byte outside the field after a transfer. -/
theorem readByte_memWrite_outside (s : State) (addr : Nat) (bs : List Byte) {a : Nat}
    (ha : a < addr ∨ addr + bs.length ≤ a) : (s.memWrite addr bs).readByte a = s.readByte a := by
  rw [State.readByte_memWrite]
  split
  · rw [List.getElem?_eq_none (by omega), Option.getD_none]
  · rfl

/-- The frame of a command that stores bytes and completes. -/
theorem storeFrame_memWrite (s : State) (addr : Nat) {n : Nat} {bs : List Byte} (hn : bs.length = n) :
    StoreFrame addr n s (s.memWrite addr bs).count where
  ccnt := by simp
  control := by constructor <;> simp
  sr := by simp
  buf a ha := readByte_memWrite_outside s addr bs (hn ▸ ha)
  regs r _ := by simp

/-- The bytes of a field read back after a transfer to it. -/
theorem memRead_memWrite (s : State) (addr : Nat) (bs : List Byte) :
    (s.memWrite addr bs).memRead addr bs.length = bs := by
  refine List.ext_getElem (by simp [State.memRead]) fun j _ hj => ?_
  simp only [State.memRead, List.getElem_map, List.getElem_range]
  exact readByte_memWrite_add s addr bs hj

/-! ## Digits -/

theorem getElem_toDigits (k m n : Nat) {j : Nat} (hj : j < (toDigits k m n).length) :
    (toDigits k m n)[j] = m / (2 ^ k) ^ (n - 1 - j) % 2 ^ k := by
  simp only [toDigits, List.getElem_map, List.getElem_range, Nat.shiftRight_eq_div_pow, Nat.pow_mul]

theorem lt_of_mem_toDigits {k m n d : Nat} (h : d ∈ toDigits k m n) : d < 2 ^ k := by
  obtain ⟨j, -, rfl⟩ := List.mem_map.mp h
  exact Nat.mod_lt _ (Nat.two_pow_pos k)

/-- The digits of a number that fits, each written as a byte and read back as its value, give the number. -/
theorem ofDigits_map_toDigits {k m n : Nat} (hm : m < (2 ^ k) ^ n) {chr : Nat → Byte} {val : Byte → Nat}
    (h : ∀ d < 2 ^ k, val (chr d) = d) : ofDigits (2 ^ k) (((toDigits k m n).map chr).map val) = m := by
  have hid : ((toDigits k m n).map chr).map val = toDigits k m n := by
    rw [List.map_map]
    exact (List.map_congr_left fun d hd => h d (lt_of_mem_toDigits hd)).trans (List.map_id _)
  rw [hid, ofDigits_digits, Nat.mod_eq_of_lt hm]

/-- The character of a hex digit (41_transfer.md R129). -/
theorem toNat_hexChr {d : Nat} (h : d < 16) : (hexChr d).toNat = if d ≤ 9 then 0x30 + d else 0x41 + (d - 10) := by
  rw [hexChr, BitVec.toNat_ofNat, Nat.mod_eq_of_lt]
  split <;> omega

/-! ## What each transfer answers -/

theorem raises_iff (i : Instr) (f : FaultCode) (s : State) :
    Raises i f s ↔ exec i s = .next (s.enterFault f (encode i)) := Iff.rfl

/-- A length outside its contract comes first (60_exceptions.md R266). -/
theorem fieldFault_len {k : Nat} {g : FaultCode} {n : Nat} (addr : Nat) (h : n = 0 ∨ k < n) :
    fieldFault k g addr n = some g := if_pos h

/-- A field of a legal length that runs past the end of BUF (20_memory.md R65). -/
theorem fieldFault_range {k : Nat} {g : FaultCode} {addr n : Nat} (h1 : 1 ≤ n) (h2 : n ≤ k) (h3 : 256 < addr + n) :
    fieldFault k g addr n = some .bufRange := by
  rw [fieldFault, if_neg (by omega), if_pos h3]

section
variable {r : Reg} {addr len : Nat} {s : State} {f : FaultCode}

theorem raises_ldb (h : fieldFault 64 .bytesLen addr len = some f) : Raises (.ldb r addr len) f s := by
  simp only [raises_iff, exec, execLdb, h, State.raise_eq]

theorem raises_stb (h : fieldFault 64 .bytesLen addr len = some f) : Raises (.stb r addr len) f s := by
  simp only [raises_iff, exec, execStb, h, State.raise_eq]

theorem raises_ldh (h : fieldFault 128 .hexLen addr len = some f) : Raises (.ldh r addr len) f s := by
  simp only [raises_iff, exec, execLdh, h, State.raise_eq]

theorem raises_sth (h : fieldFault 128 .hexLen addr len = some f) : Raises (.sth r addr len) f s := by
  simp only [raises_iff, exec, execSth, h, State.raise_eq]

theorem exec_ldb (h : fieldFault 64 .bytesLen addr len = none) :
    exec (.ldb r addr len) s = .next (s.writeNum r (s.bytesValue addr len)).count := by
  simp only [exec, execLdb, h, State.complete_eq]

theorem exec_ldh (h : fieldFault 128 .hexLen addr len = none) :
    exec (.ldh r addr len) s = .next (s.writeNum r (s.hexValue addr len)).count := by
  simp only [exec, execLdh, h, State.complete_eq]

/-- STB with a legal field: BYTES_FIT, or the bytes of the magnitude are stored. -/
theorem exec_stb (h : fieldFault 64 .bytesLen addr len = none) :
    exec (.stb r addr len) s =
      if 256 ^ len ≤ s.mag r then .next (s.enterFault .bytesFit (encode (.stb r addr len)))
      else .next (s.memWrite addr ((toDigits 8 (s.mag r) len).map (BitVec.ofNat 8))).count := by
  simp only [exec, execStb, h, State.raise_eq, State.complete_eq]

/-- STH with a legal field: HEX_FIT, or the hex digits of the magnitude are stored. -/
theorem exec_sth (h : fieldFault 128 .hexLen addr len = none) :
    exec (.sth r addr len) s =
      if 16 ^ len ≤ s.mag r then .next (s.enterFault .hexFit (encode (.sth r addr len)))
      else .next (s.memWrite addr ((toDigits 4 (s.mag r) len).map hexChr)).count := by
  simp only [exec, execSth, h, State.raise_eq, State.complete_eq]

/-- LDW: BUF_RANGE, or the word is sign-extended. -/
theorem exec_ldw :
    exec (.ldw r addr) s =
      if 256 < addr + s.cfg.width / 8 then .next (s.enterFault .bufRange (encode (.ldw r addr)))
      else .next (s.writeNum r (sext s.cfg.width (s.bytesValue addr (s.cfg.width / 8)))).count := by
  rw [exec, execLdw, State.raise_eq, State.complete_eq]

/-- The bytes stored by STB give the magnitude back (41_transfer.md R123). -/
theorem bytesValue_memWrite_toDigits {m : Nat} (hm : m < 256 ^ len) :
    (s.memWrite addr ((toDigits 8 m len).map (BitVec.ofNat 8))).bytesValue addr len = m := by
  have hread := memRead_memWrite s addr ((toDigits 8 m len).map (BitVec.ofNat 8))
  rw [List.length_map, toDigits_length] at hread
  rw [State.bytesValue, hread]
  exact ofDigits_map_toDigits (k := 8) hm fun d hd => (BitVec.toNat_ofNat d 8).trans (Nat.mod_eq_of_lt hd)

/-- The hex text stored by STH gives the magnitude back, for either HEX_LOWER_ACCEPT (41_transfer.md R131). -/
theorem hexValue_memWrite_toDigits {m : Nat} (hm : m < 16 ^ len) :
    (s.memWrite addr ((toDigits 4 m len).map hexChr)).hexValue addr len = m := by
  have hread := memRead_memWrite s addr ((toDigits 4 m len).map hexChr)
  rw [List.length_map, toDigits_length] at hread
  rw [State.hexValue, hread]
  exact ofDigits_map_toDigits (k := 4) hm fun d hd => hexVal_hexChr _ hd

end

end Machine

end Sys2Proof

open Sys2Proof Sys2Proof.Machine

/-- Settles O1: the register is cleared with its hidden limbs. -/
theorem zeroClearsEveryLimb : Obligations.ZeroClearsEveryLimb := by
  intro rd s
  exact ⟨decode_eq_ok_of_eq_encode (by simp [encode, encodeR]) rfl, _, rfl, by simp, limb_zeroize s rd,
    regFrame_zeroize s rd⟩

/-- Settles O2: the value written is the one read before the write. -/
theorem movCopiesTheValue : Obligations.MovCopiesTheValue := by
  intro rd ra s
  exact ⟨decode_eq_ok_of_eq_encode (by simp [encode, encodeR]) rfl, _, rfl, by simp, regFrame_writeNum s rd _⟩

/-- Settles O3: a field's big-endian value is the sum of its bytes times their weights. -/
theorem ldbReadsBigEndianBytes : Obligations.LdbReadsBigEndianBytes := by
  intro rd addr len s
  refine ⟨fun ha hl => decode_eq_ok_of_eq_encode (by simp [encode, encodeM]) (by simp [Instr.WellFormed, ha, hl]),
    fun h => raises_ldb (fieldFault_len addr h), fun h1 h2 h3 => raises_ldb (fieldFault_range h1 h2 h3),
    fun h1 h2 h3 => ⟨_, exec_ldb (fieldFault_eq_none h1 h2 h3), ?_, regFrame_writeNum s rd _⟩⟩
  rw [State.num_count, State.num_writeNum, if_pos rfl, State.bytesValue_eq]

/-- Settles O4: byte `j` of the field is digit `j` of the magnitude in base 256. -/
theorem stbWritesBigEndianBytes : Obligations.StbWritesBigEndianBytes := by
  intro ra addr len s
  refine ⟨fun ha hl => decode_eq_ok_of_eq_encode (by simp [encode, encodeM]) (by simp [Instr.WellFormed, ha, hl]),
    fun h => raises_stb (fieldFault_len addr h), fun h1 h2 h3 => raises_stb (fieldFault_range h1 h2 h3),
    fun h1 h2 h3 hm => (exec_stb (fieldFault_eq_none h1 h2 h3)).trans (if_pos hm),
    fun h1 h2 h3 hm => ⟨_, (exec_stb (fieldFault_eq_none h1 h2 h3)).trans (if_neg (not_le.mpr hm)), fun j hj => ?_,
      storeFrame_memWrite s addr (by simp)⟩⟩
  rw [readByte_count, readByte_memWrite_add _ _ _ (by simpa using hj), List.getElem_map, getElem_toDigits,
    BitVec.toNat_ofNat]
  exact Nat.mod_mod _ _

/-- Settles O5: the word's big-endian value is sign-extended from `W` bits. -/
theorem ldwReadsASignedWord : Obligations.LdwReadsASignedWord := by
  intro rd addr s
  refine ⟨fun ha => decode_eq_ok_of_eq_encode (by simp [encode, encodeM]) (by simp [Instr.WellFormed, ha]),
    fun h => exec_ldw.trans (if_pos h),
    fun h => ⟨_, _, exec_ldw.trans (if_neg (not_lt.mpr h)), rfl, ?_, regFrame_writeNum s rd _⟩⟩
  rw [State.num_count, State.num_writeNum, if_pos rfl, State.bytesValue_eq, sext]

/-- Settles O6: the three digit ranges are disjoint. -/
theorem hexDigitValues : Obligations.HexDigitValues := by
  intro c b
  refine ⟨fun h1 h2 => ?_, fun h1 h2 => ?_, fun h1 h2 => ?_, fun h1 h2 h3 => ?_⟩
  · exact if_pos ⟨h1, h2⟩
  · rw [hexVal, if_neg (by omega), if_pos ⟨h1, h2⟩]
  · rw [hexVal, if_neg (by omega), if_neg (by omega), if_pos ⟨h1, h2⟩]
  · rw [hexVal, if_neg (by omega), if_neg (by omega), if_neg (by omega)]

/-- Settles O7: a text's value is the sum of its characters' digit values times their weights. -/
theorem ldhReadsHexText : Obligations.LdhReadsHexText := by
  intro rd addr len s
  refine ⟨fun ha hl => decode_eq_ok_of_eq_encode (by simp [encode, encodeM]) (by simp [Instr.WellFormed, ha, hl]),
    fun h => raises_ldh (fieldFault_len addr h), fun h1 h2 h3 => raises_ldh (fieldFault_range h1 h2 h3),
    fun h1 h2 h3 => ⟨_, exec_ldh (fieldFault_eq_none h1 h2 h3), ?_, regFrame_writeNum s rd _⟩⟩
  rw [State.num_count, State.num_writeNum, if_pos rfl, State.hexValue_eq]

/-- Settles O8: byte `j` of the field is the character of digit `j` of the magnitude in base 16. -/
theorem sthWritesHexText : Obligations.SthWritesHexText := by
  intro ra addr len s
  refine ⟨fun ha hl => decode_eq_ok_of_eq_encode (by simp [encode, encodeM]) (by simp [Instr.WellFormed, ha, hl]),
    fun h => raises_sth (fieldFault_len addr h), fun h1 h2 h3 => raises_sth (fieldFault_range h1 h2 h3),
    fun h1 h2 h3 hm => (exec_sth (fieldFault_eq_none h1 h2 h3)).trans (if_pos hm),
    fun h1 h2 h3 hm => ⟨_, (exec_sth (fieldFault_eq_none h1 h2 h3)).trans (if_neg (not_le.mpr hm)), fun j hj => ?_,
      storeFrame_memWrite s addr (by simp)⟩⟩
  rw [readByte_count, readByte_memWrite_add _ _ _ (by simpa using hj), List.getElem_map, getElem_toDigits]
  exact toNat_hexChr (Nat.mod_lt _ (by decide))

/-- Settles O9: LDB reads back the digits that STB stored. -/
theorem bytesRoundTrip : Obligations.BytesRoundTrip := by
  intro ra rd addr n s h1 h2 h3 h0 hm
  have hfield := fieldFault_eq_none (g := .bytesLen) h1 h2 h3
  refine ⟨_, _, (exec_stb hfield).trans (if_neg (not_le.mpr hm)), exec_ldb hfield, ?_, by simp⟩
  rw [State.num_count, State.num_writeNum, if_pos rfl]
  exact (congrArg Nat.cast (bytesValue_memWrite_toDigits hm)).trans (Int.natAbs_of_nonneg h0)

/-- Settles O10: LDH reads back the digits that STH stored. -/
theorem hexRoundTrip : Obligations.HexRoundTrip := by
  intro ra rd addr n s h1 h2 h3 h0 hm
  have hfield := fieldFault_eq_none (g := .hexLen) h1 h2 h3
  refine ⟨_, _, (exec_sth hfield).trans (if_neg (not_le.mpr hm)), exec_ldh hfield, ?_, by simp⟩
  rw [State.num_count, State.num_writeNum, if_pos rfl]
  exact (congrArg Nat.cast (hexValue_memWrite_toDigits hm)).trans (Int.natAbs_of_nonneg h0)
end

section
/-! PROOFS. The comparison commands of 42_compare.md: the frame of a write of SR, the encoding of a three-way comparison in SR, and
what each command answers. -/

namespace Sys2Proof.Machine

/-! ## Commands that answer in SR -/

/-- The frame of a command that writes SR and completes. -/
theorem srFrame_setSr (s : State) (v : Word64) : SrFrame s (s.setSr v).count where
  ccnt := rfl
  control := ⟨rfl, rfl, rfl, rfl, rfl, rfl, rfl⟩
  buf _ := rfl
  regs r _ := State.num_setSr s v r

/-- A command that answers `v` completes with `v` in SR, in the frame of a write of SR. -/
theorem exists_srFrame_of_exec_eq_answer {i : Instr} {s : State} {v : Word64} {n : Nat} (hexec : exec i s = s.answer v)
    (hv : v.toNat = n) : ∃ t, exec i s = .next t ∧ t.sr.toNat = n ∧ SrFrame s t :=
  ⟨(s.setSr v).count, hexec, hv, srFrame_setSr s v⟩

/-! ## The encoding of a comparison (10_state.md R38) -/

theorem twos_lt (n : Nat) (x : Int) : twos n x < 2 ^ n := by
  have hpos : (0 : Int) < 2 ^ n := by positivity
  have hlt := Int.emod_lt_of_pos x hpos
  rw [twos, Int.toNat_lt (Int.emod_nonneg x hpos.ne')]
  exact_mod_cast hlt

/-- SR holds the two's-complement word of a comparison's result. -/
theorem srOrder_toNat (c : Config) (x : Int) : (srOrder c x).toNat = twos c.width x := srWord_toNat c (twos_lt _ _)

theorem twos_zero (n : Nat) : twos n 0 = 0 := by simp [twos]

theorem twos_one {n : Nat} (hn : 0 < n) : twos n 1 = 1 := by
  rw [twos, Int.emod_eq_of_lt one_pos.le (one_lt_pow₀ one_lt_two hn.ne'), Int.toNat_one]

/-- The word of -1 is all ones. -/
theorem twos_neg_one (n : Nat) : twos n (-1) = 2 ^ n - 1 := by
  have hcast : (2 : Int) ^ n = (2 ^ n : Nat) := by norm_cast
  have hpos := Nat.two_pow_pos n
  rw [twos, hcast, ← Int.add_emod_right, Int.emod_eq_of_lt (by omega) (by omega)]
  omega

/-- The comparator's answer in SR: all ones, 1 or 0 as the first magnitude is below, above or equal to the second
(42_compare.md R151). -/
theorem srOrder_compareMagnitude_toNat (c : Config) (a b : Nat) :
    (srOrder c (compareMagnitude c a b)).toNat = if a < b then 2 ^ c.width - 1 else if b < a then 1 else 0 := by
  rw [srOrder_toNat, compareMagnitude_eq]
  split
  · exact twos_neg_one _
  · split
    · exact twos_one (width_pos c)
    · exact twos_zero _

/-- A decided proposition in SR: 1 if it holds and 0 otherwise (10_state.md R38). -/
theorem srBool_decide_toNat (c : Config) (p : Prop) [Decidable p] : (srBool c (decide p)).toNat = if p then 1 else 0 := by
  simp only [srBool_toNat, decide_eq_true_eq]

end Sys2Proof.Machine

open Sys2Proof Sys2Proof.Machine

/-- Settles O11: the limb form orders magnitudes numerically, and -1 is all ones at width `W`. -/
theorem cmpmOrdersMagnitudes : Obligations.CmpmOrdersMagnitudes := by
  intro ra rb s
  exact ⟨decode_eq_ok_of_eq_encode (by simp [encode, encodeR]) rfl,
    exists_srFrame_of_exec_eq_answer rfl (srOrder_compareMagnitude_toNat _ _ _)⟩

/-- Settles O12: the answer is the decided equality of the two values. -/
theorem eqAnswersEquality : Obligations.EqAnswersEquality := by
  intro ra rb s
  exact ⟨decode_eq_ok_of_eq_encode (by simp [encode, encodeR]) rfl,
    exists_srFrame_of_exec_eq_answer rfl (srBool_decide_toNat _ _)⟩

/-- Settles O13: the answer is the decided equality with 0. -/
theorem iszAnswersZero : Obligations.IszAnswersZero := by
  intro ra s
  exact ⟨decode_eq_ok_of_eq_encode (by simp [encode, encodeR]) rfl,
    exists_srFrame_of_exec_eq_answer rfl (srBool_decide_toNat _ _)⟩

/-- Settles O14: the lowest bit of the magnitude fits SR at either width. -/
theorem isoddAnswersLowestBit : Obligations.IsoddAnswersLowestBit := by
  intro ra s
  have hbit : s.mag ra % 2 < 2 ^ s.cfg.width := (Nat.mod_lt _ two_pos).trans_le (two_le_two_pow_width _)
  exact ⟨decode_eq_ok_of_eq_encode (by simp [encode, encodeR]) rfl,
    exists_srFrame_of_exec_eq_answer rfl (srWord_toNat _ hbit)⟩

/-- Settles O15: the answer is the decided sign. -/
theorem isnegAnswersSign : Obligations.IsnegAnswersSign := by
  intro ra s
  exact ⟨decode_eq_ok_of_eq_encode (by simp [encode, encodeR]) rfl,
    exists_srFrame_of_exec_eq_answer rfl (srBool_decide_toNat _ _)⟩
end

section
/-! PROOFS. The additive commands of 43_additive.md: limb counts of sums, what ADD and SUB answer, and the limb-level adder and
subtractor of R175. -/

namespace Sys2Proof.Machine

/-! ## Limb counts (00_scope.md R19) -/

/-- A smaller magnitude has no more limbs. -/
theorem limbs_mono (c : Config) {a b : Nat} (h : a ≤ b) : limbs c a ≤ limbs c b :=
  (limbs_le_iff c a _ (limbs_pos c b)).mpr (h.trans_lt (lt_two_pow_limbs c b))

/-- A sum of magnitudes of `n` limbs needs at most `n + 1`. -/
theorem limbs_add_le {c : Config} {a b n : Nat} (ha : limbs c a ≤ n) (hb : limbs c b ≤ n) : limbs c (a + b) ≤ n + 1 := by
  have hn : 1 ≤ n := (limbs_pos c a).trans ha
  rw [limbs_le_iff c _ _ hn] at ha hb
  rw [limbs_le_iff c _ _ (Nat.le_add_left _ _), Nat.mul_add_one, Nat.pow_add]
  calc a + b < 2 ^ (c.width * n) * 2 := by omega
    _ ≤ 2 ^ (c.width * n) * 2 ^ c.width := Nat.mul_le_mul_left _ (two_le_two_pow_width c)

/-- A sum is at most one limb longer than its longer operand (43_additive.md R172). -/
theorem limbs_natAbs_add_le (c : Config) (a b : Int) :
    limbs c (a + b).natAbs ≤ max (limbs c a.natAbs) (limbs c b.natAbs) + 1 :=
  (limbs_mono c (Int.natAbs_add_le a b)).trans (limbs_add_le (le_max_left _ _) (le_max_right _ _))

/-- A magnitude above one limb has one limb more than what stands above its lowest limb. -/
theorem limbs_eq_limbs_div_add_one (c : Config) {m : Nat} (h : 2 ^ c.width ≤ m) :
    limbs c m = limbs c (m / 2 ^ c.width) + 1 := by
  refine eq_of_forall_ge_iff fun n => ?_
  have hm := limbs_pos c m
  have hq := limbs_pos c (m / 2 ^ c.width)
  have hone := limbs_le_iff c m 1 le_rfl
  rw [Nat.mul_one] at hone
  rcases n with _ | _ | n
  · omega
  · omega
  · rw [Nat.add_le_add_iff_right, limbs_le_iff c _ _ (Nat.le_add_left _ _), limbs_le_iff c _ _ (Nat.le_add_left _ _),
      Nat.div_lt_iff_lt_mul (Nat.two_pow_pos _), ← Nat.pow_add, ← Nat.mul_add_one]

/-- A register of a state that keeps the invariant has at most CAP limbs (10_state.md R33). -/
theorem State.Inv.len_le_cap {s : State} (h : s.Inv) (r : Reg) : s.len r ≤ s.cfg.cap :=
  (limbs_le_iff s.cfg _ _ (cap_pos s.cfg)).mpr (h.regs r)

/-- A magnitude that overflows a register is above that of every register. -/
theorem State.Inv.mag_lt_of_cap_lt {s : State} (h : s.Inv) {m : Nat} (hcap : s.cfg.cap < limbs s.cfg m) (r : Reg) :
    s.mag r < m :=
  lt_of_limbs_lt s.cfg ((h.len_le_cap r).trans_lt hcap)

/-! ## What ADD and SUB answer -/

/-- ADD: the sum is written when it needs at most CAP limbs, else CAPACITY is raised. -/
theorem exec_add (rd ra rb : Reg) (s : State) :
    exec (.add rd ra rb) s =
      if limbs s.cfg (s.num ra + s.num rb).natAbs ≤ s.cfg.cap then .next (s.writeNum rd (s.num ra + s.num rb)).count
      else .next (s.enterFault .capacity (encode (.add rd ra rb))) := by
  simp only [exec, execAdd, addsub_add, State.commit_ite, limbs_le_iff _ _ _ (cap_pos s.cfg)]

/-- SUB: the difference is written when it needs at most CAP limbs, else CAPACITY is raised. -/
theorem exec_sub (rd ra rb : Reg) (s : State) :
    exec (.sub rd ra rb) s =
      if limbs s.cfg (s.num ra - s.num rb).natAbs ≤ s.cfg.cap then .next (s.writeNum rd (s.num ra - s.num rb)).count
      else .next (s.enterFault .capacity (encode (.sub rd ra rb))) := by
  simp only [exec, execSub, addsub_sub, State.commit_ite, limbs_le_iff _ _ _ (cap_pos s.cfg)]

/-- A sum that overflows a register is larger than both operands, which therefore have one sign. -/
theorem State.Inv.same_sign_of_cap_lt {s : State} (h : s.Inv) {ra rb : Reg}
    (hcap : s.cfg.cap < limbs s.cfg (s.num ra + s.num rb).natAbs) : s.num ra < 0 ↔ s.num rb < 0 := by
  have ha : (s.num ra).natAbs < (s.num ra + s.num rb).natAbs := h.mag_lt_of_cap_lt hcap ra
  have hb : (s.num rb).natAbs < (s.num ra + s.num rb).natAbs := h.mag_lt_of_cap_lt hcap rb
  omega

/-- A difference that overflows a register is larger than both operands, which therefore have opposite signs. -/
theorem State.Inv.opposite_sign_of_cap_lt {s : State} (h : s.Inv) {ra rb : Reg}
    (hcap : s.cfg.cap < limbs s.cfg (s.num ra - s.num rb).natAbs) : s.num ra < 0 ↔ ¬s.num rb < 0 := by
  have ha : (s.num ra).natAbs < (s.num ra - s.num rb).natAbs := h.mag_lt_of_cap_lt hcap ra
  have hb : (s.num rb).natAbs < (s.num ra - s.num rb).natAbs := h.mag_lt_of_cap_lt hcap rb
  omega

/-- A sum that overflows a register has an operand of CAP limbs. -/
theorem State.Inv.len_eq_cap_of_cap_lt {s : State} (h : s.Inv) {ra rb : Reg}
    (hcap : s.cfg.cap < limbs s.cfg (s.num ra + s.num rb).natAbs) : s.len ra = s.cfg.cap ∨ s.len rb = s.cfg.cap := by
  have hgrow : limbs s.cfg (s.num ra + s.num rb).natAbs ≤ max (s.len ra) (s.len rb) + 1 := limbs_natAbs_add_le _ _ _
  have ha := h.len_le_cap ra
  have hb := h.len_le_cap rb
  omega

/-! ## Limb lists (10_state.md R31) -/

@[simp] theorem length_limbList (c : Config) (m n : Nat) : (limbList c m n).length = n := by simp [limbList]

theorem lt_of_mem_limbList {c : Config} {m n x : Nat} (h : x ∈ limbList c m n) : x < 2 ^ c.width := by
  obtain ⟨k, -, rfl⟩ := List.mem_map.mp h
  exact limbOf_lt c m k

theorem limbOf_zero_index (c : Config) (m : Nat) : limbOf c m 0 = m % 2 ^ c.width := rfl

theorem limbOf_succ (c : Config) (m k : Nat) : limbOf c m (k + 1) = limbOf c (m / 2 ^ c.width) k := by
  rw [limbOf, limbOf, Nat.mul_add_one, Nat.add_comm, Nat.shiftRight_add, Nat.shiftRight_eq_div_pow m]

/-- The lowest limb first, then the limbs of what stands above it. -/
theorem limbList_succ (c : Config) (m n : Nat) :
    limbList c m (n + 1) = m % 2 ^ c.width :: limbList c (m / 2 ^ c.width) n := by
  simp only [limbList, List.range_succ_eq_map, List.map_cons, List.map_map, limbOf_zero_index]
  exact congrArg _ (List.map_congr_left fun k _ => limbOf_succ c m k)

/-- The `n` lowest limbs of a magnitude hold it modulo `2^(W*n)`. -/
theorem limbValue_limbList (c : Config) (m n : Nat) : limbValue c (limbList c m n) = m % 2 ^ (c.width * n) := by
  induction n generalizing m with
  | zero => simp [limbList, limbValue, Nat.mod_one]
  | succ n ih => rw [limbList_succ, limbValue, ih, Nat.mul_add_one, Nat.add_comm _ c.width, Nat.pow_add, Nat.mod_mul]

/-- Enough limbs hold the whole magnitude. -/
theorem limbValue_limbList_of_limbs_le {c : Config} {m n : Nat} (h : limbs c m ≤ n) :
    limbValue c (limbList c m n) = m := by
  rw [limbValue_limbList, Nat.mod_eq_of_lt ((limbs_le_iff c m n ((limbs_pos c m).trans h)).mp h)]

/-! ## The ripple adder (43_additive.md R175) -/

/-- The ripple adder's limbs hold the sum of the two lists' values and the carry in. -/
theorem limbValue_rippleAdd (c : Config) {as bs : List Nat} (k : Nat) (h : as.length = bs.length) :
    limbValue c (rippleAdd c as bs k) = limbValue c as + limbValue c bs + k := by
  induction as generalizing bs k with
  | nil =>
    obtain rfl := List.length_eq_zero_iff.mp h.symm
    by_cases hk : k = 0 <;> simp [rippleAdd, limbValue, hk]
  | cons a as ih =>
    obtain ⟨b, bs, rfl⟩ := List.exists_cons_of_length_eq_add_one h.symm
    have hlimb := Nat.mod_add_div (a + b + k) (2 ^ c.width)
    simp only [rippleAdd, limbValue, ih _ (Nat.succ.inj h), Nat.mul_add]
    omega

/-- The ripple adder adds at most the limb of the last carry. -/
theorem length_rippleAdd_le (c : Config) (as bs : List Nat) (k : Nat) : (rippleAdd c as bs k).length ≤ as.length + 1 := by
  induction as generalizing bs k with
  | nil => by_cases hk : k = 0 <;> simp [rippleAdd, hk]
  | cons a as ih =>
    cases bs with
    | nil => by_cases hk : k = 0 <;> simp [rippleAdd, hk]
    | cons b bs => exact Nat.succ_le_succ (ih bs _)

/-! ## The ripple subtractor (43_additive.md R175) -/

/-- One limb of the subtractor: the difference is the limb written less the borrow out. -/
theorem subLimb_add {B a b k : Nat} (ha : a < B) (hb : b < B) (hk : k ≤ 1) :
    (a + B - b - k) % B + b + k = a + B * (if a < b + k then 1 else 0) := by
  split
  · rw [Nat.mod_eq_of_lt (by omega)]; omega
  · rw [show a + B - b - k = (a - b - k) + B by omega, Nat.add_mod_right, Nat.mod_eq_of_lt (by omega)]; omega

/-- A borrow out of the lowest limb is covered by the limbs above it. -/
theorem borrow_le {B a b k x y : Nat} (ha : a < B) (h : b + B * y + k ≤ a + B * x) :
    y + (if a < b + k then 1 else 0) ≤ x := by
  split
  · exact Nat.lt_of_mul_lt_mul_left (a := B) (by omega)
  · exact Nat.le_of_lt_succ (Nat.lt_of_mul_lt_mul_left (a := B) (by rw [Nat.add_zero, Nat.mul_succ]; omega))

/-- The ripple subtractor's limbs hold the difference when minuend ≥ subtrahend, the borrow in included. -/
theorem limbValue_rippleSub_add (c : Config) {as bs : List Nat} {k : Nat} (h : as.length = bs.length)
    (has : ∀ a ∈ as, a < 2 ^ c.width) (hbs : ∀ b ∈ bs, b < 2 ^ c.width) (hk : k ≤ 1)
    (hle : limbValue c bs + k ≤ limbValue c as) :
    limbValue c (rippleSub c as bs k) + limbValue c bs + k = limbValue c as := by
  induction as generalizing bs k with
  | nil =>
    obtain rfl := List.length_eq_zero_iff.mp h.symm
    simp only [rippleSub, limbValue] at hle ⊢
    omega
  | cons a as ih =>
    obtain ⟨b, bs, rfl⟩ := List.exists_cons_of_length_eq_add_one h.symm
    obtain ⟨ha, has⟩ := List.forall_mem_cons.mp has
    obtain ⟨hb, hbs⟩ := List.forall_mem_cons.mp hbs
    have hlimb := subLimb_add ha hb hk
    have hrest := congrArg (2 ^ c.width * ·)
      (ih (Nat.succ.inj h) has hbs (by split <;> omega) (borrow_le ha hle))
    simp only [rippleSub, limbValue, Nat.mul_add] at hrest ⊢
    omega

/-- What the ripple subtractor writes are limbs. -/
theorem lt_of_mem_rippleSub {c : Config} {as bs : List Nat} {k : Nat} :
    ∀ d ∈ rippleSub c as bs k, d < 2 ^ c.width := by
  induction as generalizing bs k with
  | nil => simp [rippleSub]
  | cons a as ih =>
    cases bs with
    | nil => simp [rippleSub]
    | cons b bs => exact List.forall_mem_cons.mpr ⟨Nat.mod_lt _ (Nat.two_pow_pos _), ih⟩

/-! ## Trimming (10_state.md R32) -/

theorem stripLimbs_cons_of_eq_nil (x : Nat) {xs : List Nat} (h : stripLimbs xs = []) :
    stripLimbs (x :: xs) = if x = 0 then [] else [x] := by
  rw [stripLimbs, h]

theorem stripLimbs_cons_of_ne_nil (x : Nat) {xs : List Nat} (h : stripLimbs xs ≠ []) :
    stripLimbs (x :: xs) = x :: stripLimbs xs := by
  obtain ⟨y, ys, hys⟩ := List.exists_cons_of_ne_nil h
  rw [stripLimbs, hys]

theorem trimLimbs_of_eq_nil {xs : List Nat} (h : stripLimbs xs = []) : trimLimbs xs = [0] := by
  rw [trimLimbs, h]

theorem trimLimbs_of_ne_nil {xs : List Nat} (h : stripLimbs xs ≠ []) : trimLimbs xs = stripLimbs xs := by
  obtain ⟨y, ys, hys⟩ := List.exists_cons_of_ne_nil h
  rw [trimLimbs, hys]

/-- The canonical limbs of a magnitude: `limbs` of them. -/
def canonicalLimbs (c : Config) (m : Nat) : List Nat := limbList c m (limbs c m)

theorem canonicalLimbs_ne_nil (c : Config) (m : Nat) : canonicalLimbs c m ≠ [] := by
  rw [canonicalLimbs, ← List.length_pos_iff, length_limbList]
  exact limbs_pos c m

/-- A magnitude below `2^W` is its only limb. -/
theorem canonicalLimbs_of_lt {c : Config} {m : Nat} (h : m < 2 ^ c.width) : canonicalLimbs c m = [m] := by
  have hone : limbs c m = 1 :=
    le_antisymm ((limbs_le_iff c m 1 le_rfl).mpr (by rwa [Nat.mul_one])) (limbs_pos c m)
  rw [canonicalLimbs, hone, limbList_succ, Nat.mod_eq_of_lt h]
  rfl

/-- A limb below a non-zero magnitude stands in front of its limbs. -/
theorem canonicalLimbs_add_mul {c : Config} {x m : Nat} (hx : x < 2 ^ c.width) (hm : m ≠ 0) :
    canonicalLimbs c (x + 2 ^ c.width * m) = x :: canonicalLimbs c m := by
  have hB := Nat.two_pow_pos c.width
  have hle : 2 ^ c.width ≤ x + 2 ^ c.width * m := le_add_left (Nat.le_mul_of_pos_right _ (Nat.pos_of_ne_zero hm))
  have hdiv : (x + 2 ^ c.width * m) / 2 ^ c.width = m := by
    rw [Nat.add_mul_div_left _ _ hB, Nat.div_eq_of_lt hx, Nat.zero_add]
  rw [canonicalLimbs, limbs_eq_limbs_div_add_one c hle, hdiv, limbList_succ, hdiv, Nat.add_mul_mod_self_left,
    Nat.mod_eq_of_lt hx, canonicalLimbs]

/-- Stripping leaves the canonical limbs of the value, and none of 0. -/
theorem stripLimbs_eq (c : Config) {ds : List Nat} (h : ∀ d ∈ ds, d < 2 ^ c.width) :
    stripLimbs ds = if limbValue c ds = 0 then [] else canonicalLimbs c (limbValue c ds) := by
  induction ds with
  | nil => rfl
  | cons x xs ih =>
    obtain ⟨hx, hxs⟩ := List.forall_mem_cons.mp h
    specialize ih hxs
    by_cases hv : limbValue c xs = 0
    · rw [if_pos hv] at ih
      rw [stripLimbs_cons_of_eq_nil x ih, limbValue, hv, Nat.mul_zero, Nat.add_zero, canonicalLimbs_of_lt hx]
    · rw [if_neg hv] at ih
      have hne : x + 2 ^ c.width * limbValue c xs ≠ 0 := by simp [hv]
      rw [stripLimbs_cons_of_ne_nil x (ih ▸ canonicalLimbs_ne_nil c _), ih, limbValue, if_neg hne,
        canonicalLimbs_add_mul hx hv]

/-- Trimming a list of limbs leaves the canonical limbs of its value. -/
theorem trimLimbs_eq (c : Config) {ds : List Nat} (h : ∀ d ∈ ds, d < 2 ^ c.width) :
    trimLimbs ds = canonicalLimbs c (limbValue c ds) := by
  have hstrip := stripLimbs_eq c h
  by_cases hv : limbValue c ds = 0
  · rw [if_pos hv] at hstrip
    rw [trimLimbs_of_eq_nil hstrip, hv, canonicalLimbs_of_lt (Nat.two_pow_pos _)]
  · rw [if_neg hv] at hstrip
    rw [trimLimbs_of_ne_nil (hstrip ▸ canonicalLimbs_ne_nil c _), hstrip]

end Sys2Proof.Machine

open Sys2Proof Sys2Proof.Machine

/-- Settles O16: the sum is at most one limb longer than its operands, and larger than both only if they have one sign. -/
theorem addWritesTheExactSum : Obligations.AddWritesTheExactSum := by
  intro rd ra rb s
  refine ⟨decode_eq_ok_of_eq_encode (by simp [encode, encodeR]) rfl, fun h => (exec_add rd ra rb s).trans (if_neg h.not_ge),
    fun h => ⟨_, (exec_add rd ra rb s).trans (if_pos h), by simp, ?_, regFrame_writeNum s rd _⟩,
    fun hinv h => ⟨hinv.same_sign_of_cap_lt h, hinv.len_eq_cap_of_cap_lt h⟩⟩
  rw [State.len, State.mag, State.num_count, State.num_writeNum, if_pos rfl]
  exact limbs_natAbs_add_le s.cfg _ _

/-- Settles O17: the difference is larger than both operands only if their signs differ. -/
theorem subWritesTheExactDifference : Obligations.SubWritesTheExactDifference := by
  intro rd ra rb s
  exact ⟨decode_eq_ok_of_eq_encode (by simp [encode, encodeR]) rfl, fun h => (exec_sub rd ra rb s).trans (if_neg h.not_ge),
    fun h => ⟨_, (exec_sub rd ra rb s).trans (if_pos h), by simp, regFrame_writeNum s rd _⟩,
    fun hinv h => hinv.opposite_sign_of_cap_lt h⟩

/-- Settles O18: the sum leaves `b` as it was, so the difference is the old value of `a`, which fits. -/
theorem subUndoesAdd : Obligations.SubUndoesAdd := by
  intro rd re ra rb s hinv hne hfit
  obtain ⟨-, -, hadd, -⟩ := addWritesTheExactSum rd ra rb s
  obtain ⟨t, ht, hsum, -, htframe⟩ := hadd hfit
  have hb : t.num rb = s.num rb := htframe.regs rb (by simpa using hne.symm)
  have hdiff : t.num rd - t.num rb = s.num ra := by rw [hsum, hb, Int.add_sub_cancel]
  obtain ⟨-, -, hsub, -⟩ := subWritesTheExactDifference re rd rb t
  obtain ⟨u, hu, hnum, huframe⟩ := hsub (by rw [hdiff, htframe.control.cfg]; exact hinv.len_le_cap ra)
  exact ⟨t, u, ht, hsum, hu, hnum, hnum.trans hdiff, huframe.control.fault.trans htframe.control.fault⟩

/-- Settles O19: the ripple lists are evaluated limb by limb, and a trimmed list is the canonical one of its value. -/
theorem limbAdderComputesTheSum : Obligations.LimbAdderComputesTheSum := by
  intro c a b n hn
  have ha : limbValue c (limbList c a n) = a := limbValue_limbList_of_limbs_le (hn ▸ le_max_left _ _)
  have hb : limbValue c (limbList c b n) = b := limbValue_limbList_of_limbs_le (hn ▸ le_max_right _ _)
  have hlen : (limbList c a n).length = (limbList c b n).length := by simp
  refine ⟨by rw [limbValue_rippleAdd c 0 hlen, ha, hb, Nat.add_zero], ?_, fun hle => ?_⟩
  · simpa using length_rippleAdd_le c (limbList c a n) (limbList c b n) 0
  · have hsub := limbValue_rippleSub_add c (k := 0) hlen (fun _ => lt_of_mem_limbList) (fun _ => lt_of_mem_limbList)
      (Nat.zero_le _) (by rwa [ha, hb])
    have hdiff : limbValue c (rippleSub c (limbList c a n) (limbList c b n) 0) = a - b := by omega
    exact ⟨hdiff, by rw [trimLimbs_eq c lt_of_mem_rippleSub, hdiff, canonicalLimbs]⟩
end

section
/-! PROOFS. The multiplicative commands of 44_multiplicative.md: the limb count of a product and its schoolbook sum, and what MUL,
DIV and MODMUL answer. -/

namespace Sys2Proof.Machine

/-! ## The limb count of a product (44_multiplicative.md R191) -/

/-- A non-zero magnitude reaches into its highest limb. -/
theorem two_pow_limbs_pred_le (c : Config) {m : Nat} (hm : m ≠ 0) : 2 ^ (c.width * (limbs c m - 1)) ≤ m := by
  rcases Nat.eq_zero_or_pos (limbs c m - 1) with h | h
  · rw [h, Nat.mul_zero, Nat.pow_zero]
    exact Nat.pos_of_ne_zero hm
  · exact two_pow_le_of_limbs c h (by omega)

/-- A product has at most the limbs of both factors. -/
theorem limbs_mul_le (c : Config) (a b : Nat) : limbs c (a * b) ≤ limbs c a + limbs c b := by
  rw [limbs_le_iff c _ _ (le_add_right (limbs_pos c a)), Nat.mul_add, Nat.pow_add]
  exact Nat.mul_lt_mul'' (lt_two_pow_limbs c a) (lt_two_pow_limbs c b)

/-- A product of non-zero magnitudes lacks at most one limb of both factors. -/
theorem limbs_add_limbs_le (c : Config) {a b : Nat} (ha : a ≠ 0) (hb : b ≠ 0) :
    limbs c a + limbs c b ≤ limbs c (a * b) + 1 := by
  have hpow : 2 ^ (c.width * (limbs c a - 1 + (limbs c b - 1))) < 2 ^ (c.width * limbs c (a * b)) :=
    calc 2 ^ (c.width * (limbs c a - 1 + (limbs c b - 1)))
        = 2 ^ (c.width * (limbs c a - 1)) * 2 ^ (c.width * (limbs c b - 1)) := by rw [Nat.mul_add, Nat.pow_add]
      _ ≤ a * b := Nat.mul_le_mul (two_pow_limbs_pred_le c ha) (two_pow_limbs_pred_le c hb)
      _ < _ := lt_two_pow_limbs c (a * b)
  have hlt := Nat.lt_of_mul_lt_mul_left ((Nat.pow_lt_pow_iff_right one_lt_two).mp hpow)
  omega

/-! ## The schoolbook product (44_multiplicative.md R191) -/

/-- The `n` lowest limbs of a magnitude at their weights add up to it modulo `2^(W*n)`. -/
theorem sum_limbOf_mul_two_pow (c : Config) (m n : Nat) :
    ∑ i ∈ Finset.range n, limbOf c m i * 2 ^ (c.width * i) = m % 2 ^ (c.width * n) := by
  induction n with
  | zero => simp [Nat.mod_one]
  | succ n ih => rw [Finset.sum_range_succ, ih, mod_succ_limb, Nat.add_comm, Nat.mul_comm]

/-- A magnitude is the sum of its limbs at their weights (10_state.md R31). -/
theorem sum_limbs_limbOf_mul_two_pow (c : Config) (m : Nat) :
    ∑ i ∈ Finset.range (limbs c m), limbOf c m i * 2 ^ (c.width * i) = m := by
  rw [sum_limbOf_mul_two_pow, Nat.mod_eq_of_lt (lt_two_pow_limbs c m)]

/-- The schoolbook product: every pair of limbs at the sum of their indices. -/
theorem mul_eq_sum_limbOf_mul_limbOf (c : Config) (a b : Nat) :
    a * b = ∑ i ∈ Finset.range (limbs c a), ∑ j ∈ Finset.range (limbs c b),
      limbOf c a i * limbOf c b j * 2 ^ (c.width * (i + j)) :=
  calc a * b
      = (∑ i ∈ Finset.range (limbs c a), limbOf c a i * 2 ^ (c.width * i)) *
          ∑ j ∈ Finset.range (limbs c b), limbOf c b j * 2 ^ (c.width * j) := by
        rw [sum_limbs_limbOf_mul_two_pow, sum_limbs_limbOf_mul_two_pow]
    _ = _ := by
        rw [Finset.sum_mul_sum]
        exact Finset.sum_congr rfl fun i _ => Finset.sum_congr rfl fun j _ => by ring

/-! ## What MUL, DIV and MODMUL answer -/

/-- MUL: the product is written when an operand is 0 or the limb counts sum to at most CAP, else CAPACITY is raised. -/
theorem exec_mul (rd ra rb : Reg) (s : State) :
    exec (.mul rd ra rb) s =
      if s.num ra = 0 ∨ s.num rb = 0 ∨ s.len ra + s.len rb ≤ s.cfg.cap then
        .next (s.writeNum rd (s.num ra * s.num rb)).count
      else .next (s.enterFault .capacity (encode (.mul rd ra rb))) :=
  (congrArg (s.commit _ rd) (multiply_eq s.cfg (s.num ra) (s.num rb))).trans (s.commit_ite _ _ _ _ _)

/-- DIV: DIV_ZERO is raised for a divisor of 0, else the truncating quotient is written. -/
theorem exec_div (rd ra rb : Reg) (s : State) :
    exec (.div rd ra rb) s =
      if s.num rb ≠ 0 then .next (s.writeNum rd ((s.num ra).tdiv (s.num rb))).count
      else .next (s.enterFault .divZero (encode (.div rd ra rb))) := by
  simp only [exec, execDiv, divide_eq, ← ite_not (p := s.num rb = 0), State.commit_ite, ne_eq]

/-- A modulus is refused when it is not positive or wider than MAX_LIMBS limbs (45_modular.md R210). -/
theorem modulusBad_eq_true (c : Config) (m : Int) : modulusBad c m = true ↔ m ≤ 0 ∨ c.maxLimbs < limbs c m.natAbs :=
  decide_eq_true_iff

/-- MODMUL with a refused modulus raises MOD_INVALID. -/
theorem exec_modmul_of_modulusBad {rd ra rb rc : Reg} {s : State} (h : modulusBad s.cfg (s.num rc) = true) :
    exec (.modmul rd ra rb rc) s = .next (s.enterFault .modInvalid (encode (.modmul rd ra rb rc))) := by
  rw [exec, execModmul, modularMultiply_eq, if_pos h, State.commit, State.raise_eq]

/-- MODMUL with an accepted modulus: the residue of the product is written when MUL would write the product, else CAPACITY is
raised. -/
theorem exec_modmul {rd ra rb rc : Reg} {s : State} (h : modulusBad s.cfg (s.num rc) = false) :
    exec (.modmul rd ra rb rc) s =
      if s.num ra = 0 ∨ s.num rb = 0 ∨ s.len ra + s.len rb ≤ s.cfg.cap then
        .next (s.writeNum rd (s.num ra * s.num rb % s.num rc)).count
      else .next (s.enterFault .capacity (encode (.modmul rd ra rb rc))) := by
  rw [exec, execModmul, modularMultiply_eq, if_neg (Bool.eq_false_iff.mp h)]
  exact s.commit_ite _ _ _ _ _

/-- A register that a command writes and completes holds the value written. -/
theorem num_count_writeNum_same (s : State) (r : Reg) (v : Int) : (s.writeNum r v).count.num r = v := by
  rw [State.num_count, State.num_writeNum, if_pos rfl]

end Sys2Proof.Machine

open Sys2Proof Sys2Proof.Machine

/-- Settles O21: the two conditions exclude each other, and the zero test comes first. -/
theorem mulWritesTheProduct : Obligations.MulWritesTheProduct := by
  intro rd ra rb s
  exact ⟨decode_eq_ok_of_eq_encode (by simp [encode, encodeR]) rfl,
    fun ha hb hcap => (exec_mul rd ra rb s).trans (if_neg (by omega)),
    fun h => ⟨_, (exec_mul rd ra rb s).trans (if_pos h), num_count_writeNum_same s rd _, regFrame_writeNum s rd _⟩⟩

/-- Settles O22: the factors' highest limbs bound the product on both sides, and the product of the two sums of limbs is the sum
over the pairs. -/
theorem productLimbCount : Obligations.ProductLimbCount := by
  intro c a b ha hb
  have hle := limbs_mul_le c a b
  have hge := limbs_add_limbs_le c ha hb
  exact ⟨by omega, mul_eq_sum_limbOf_mul_limbOf c a b⟩

/-- Settles O23: a divisor of more limbs than the dividend gives the truncated quotient 0 as well. -/
theorem divWritesTheTruncatedQuotient : Obligations.DivWritesTheTruncatedQuotient := by
  intro rd ra rb s
  exact ⟨decode_eq_ok_of_eq_encode (by simp [encode, encodeR]) rfl,
    fun h => (exec_div rd ra rb s).trans (if_neg (not_not_intro h)),
    fun h => ⟨_, (exec_div rd ra rb s).trans (if_pos h), num_count_writeNum_same s rd _, regFrame_writeNum s rd _⟩⟩

/-- Settles O25: the modulus is tested first and read before the write, so the residue lies below its old value. -/
theorem modmulWritesTheResidue : Obligations.ModmulWritesTheResidue := by
  intro rd ra rb rc s
  refine ⟨decode_eq_ok_of_eq_encode (by simp [encode, encodeR]) rfl,
    fun h => exec_modmul_of_modulusBad ((modulusBad_eq_true _ _).mpr h), fun hpos hlen ha hb hcap => ?_,
    fun hpos hlen h => ?_⟩
  · exact (exec_modmul ((modulusBad_eq_false _ _).mpr ⟨hpos, hlen⟩)).trans (if_neg (by omega))
  · refine ⟨_, (exec_modmul ((modulusBad_eq_false _ _).mpr ⟨hpos, hlen⟩)).trans (if_pos h), ?_⟩
    rw [num_count_writeNum_same]
    exact ⟨rfl, Int.emod_nonneg _ hpos.ne', Int.emod_lt_of_pos _ hpos, regFrame_writeNum s rd _⟩
end

section
/-! PROOFS. The modular commands of 45_modular.md: what MODRED and MODINV answer, the congruence of the signed inverse, and what
MODMUL by it gives. -/

namespace Sys2Proof.Machine

/-! ## What MODRED answers -/

/-- MODRED: the residue is written for a positive modulus of at most MAX_LIMBS limbs, else MOD_INVALID is raised. -/
theorem exec_modred (rd rc : Reg) (s : State) :
    exec (.modred rd rc) s =
      if 0 < s.num rc ∧ s.len rc ≤ s.cfg.maxLimbs then .next (s.writeNum rd (s.num rd % s.num rc)).count
      else .next (s.enterFault .modInvalid (encode (.modred rd rc))) := by
  have hok : modReduce s.cfg (s.num rd) (s.num rc) =
      if 0 < s.num rc ∧ s.len rc ≤ s.cfg.maxLimbs then .ok (s.num rd % s.num rc) else .error .modInvalid := by
    rw [modReduce_eq, ← ite_not]
    exact if_congr (Bool.not_eq_true _ ▸ modulusBad_eq_false _ _) rfl rfl
  rw [exec, execModred, hok, State.commit_ite]

/-! ## What MODINV answers -/

/-- What MODINV writes as magnitude for the magnitudes `a` and `m`: the inverse, or for `m = 1` the draw `unit`
(45_modular.md R213). -/
def inverseMag (a m : Nat) (unit : Bool) : Nat := if m = 1 then unit.toNat else inverseOf a m

/-- The magnitude MODINV writes: 0 or 1 for `m = 1`, else the inverse in `[1, m)`. -/
theorem inverseMag_spec {a m : Nat} (unit : Bool) (hm : m ≠ 0) (hg : Nat.gcd a m = 1) :
    if m = 1 then inverseMag a m unit = 0 ∨ inverseMag a m unit = 1
    else 1 ≤ inverseMag a m unit ∧ inverseMag a m unit < m ∧ a * inverseMag a m unit ≡ 1 [MOD m] := by
  unfold inverseMag
  split
  · cases unit
    · exact .inl rfl
    · exact .inr rfl
  · exact inverseOf_spec hg (by omega)

/-- MODINV's value: the modulus is tested first, then the gcd of the magnitudes. -/
theorem modInverse_eq (c : Config) (a m : Int) (unit : Bool) :
    modInverse c a m unit =
      if m = 0 ∨ c.maxLimbs < limbs c m.natAbs then .error .modInvalid
      else if Nat.gcd a.natAbs m.natAbs = 1 then .ok (mk (isNeg a ^^ isNeg m) (inverseMag a.natAbs m.natAbs unit))
      else .error .notInvertible := by
  simp only [modInverse, inverseMag, ne_eq, ite_not]

/-- MODINV with a modulus of 0 or of more than MAX_LIMBS limbs raises MOD_INVALID. -/
theorem exec_modinv_of_modInvalid {rd ra rc : Reg} {s : State} (h : s.num rc = 0 ∨ s.cfg.maxLimbs < s.len rc) :
    exec (.modinv rd ra rc) s = .next (s.enterFault .modInvalid (encode (.modinv rd ra rc))) :=
  congrArg (s.commit _ rd) ((modInverse_eq _ _ _ _).trans (if_pos h))

/-- MODINV with an accepted modulus: the signed inverse is written for coprime magnitudes, else NOT_INVERTIBLE is raised. -/
theorem exec_modinv {rd ra rc : Reg} {s : State} (hm : s.num rc ≠ 0) (hlen : s.len rc ≤ s.cfg.maxLimbs) :
    exec (.modinv rd ra rc) s =
      if Nat.gcd (s.mag ra) (s.mag rc) = 1 then
        .next (s.writeNum rd (mk (isNeg (s.num ra) ^^ isNeg (s.num rc))
          (inverseMag (s.mag ra) (s.mag rc) (Config.freeUnit s.draws)))).count
      else .next (s.enterFault .notInvertible (encode (.modinv rd ra rc))) :=
  (congrArg (s.commit _ rd) ((modInverse_eq _ _ _ _).trans (if_neg (not_or_intro hm hlen.not_gt)))).trans
    (s.commit_ite _ _ _ _ _)

/-! ## The congruence of the signed inverse (45_modular.md R214) -/

/-- The sign of `a` cancels and that of `m` stays: `a` times a magnitude `u` under the XOR of the signs. -/
theorem mul_xor_sign_eq (a : Int) {m : Int} (hm : m ≠ 0) (u : Nat) :
    a * (if (a < 0 ↔ m < 0) then (u : Int) else -(u : Int)) = m.sign * (a.natAbs * u : Nat) := by
  rw [Nat.cast_mul, Int.natCast_natAbs]
  rcases hm.lt_or_gt with hneg | hpos
  · rw [Int.sign_eq_neg_one_of_neg hneg]
    rcases lt_or_ge a 0 with ha | ha
    · simp [ha, hneg, abs_of_neg]
    · simp [ha.not_gt, hneg, abs_of_nonneg ha]
  · rw [Int.sign_eq_one_of_pos hpos]
    rcases lt_or_ge a 0 with ha | ha
    · simp [ha, hpos.not_gt, abs_of_neg]
    · simp [ha.not_gt, hpos.not_gt, abs_of_nonneg ha]

/-- `a` times its signed inverse is the sign of `m` modulo `m`. -/
theorem mul_xor_sign_modEq_sign {a m : Int} (hm : m ≠ 0) {u : Nat} (hu : a.natAbs * u ≡ 1 [MOD m.natAbs]) :
    a * (if (a < 0 ↔ m < 0) then (u : Int) else -(u : Int)) ≡ m.sign [ZMOD m] := by
  have hmag : ((a.natAbs * u : Nat) : Int) ≡ 1 [ZMOD m] :=
    (Int.natCast_modEq_iff.mpr hu).of_dvd Int.dvd_natAbs_self
  rw [mul_xor_sign_eq a hm]
  simpa using hmag.mul_left m.sign

/-- A register that a command may not write has the limb count it had. -/
theorem RegFrame.len_eq {ds : List Reg} {s t : State} (h : RegFrame ds s t) {r : Reg} (hr : r ∉ ds) : t.len r = s.len r := by
  rw [State.len, State.len, State.mag, State.mag, h.regs r hr, h.control.cfg]

end Sys2Proof.Machine

open Sys2Proof Sys2Proof.Machine

/-- Settles O26: the corrected remainder is the residue, and the modulus is read before the write. -/
theorem modredWritesTheResidue : Obligations.ModredWritesTheResidue := by
  intro rd rc s
  refine ⟨decode_eq_ok_of_eq_encode (by simp [encode, encodeR]) rfl,
    fun h => (exec_modred rd rc s).trans (if_neg (by omega)),
    fun hpos hlen => ⟨_, (exec_modred rd rc s).trans (if_pos ⟨hpos, hlen⟩), ?_⟩⟩
  rw [num_count_writeNum_same]
  exact ⟨Int.emod_nonneg _ hpos.ne', Int.emod_lt_of_pos _ hpos, Int.mod_modEq _ _, regFrame_writeNum s rd _⟩

/-- Settles O27: for coprime magnitudes the normalized Bezout coefficient is the inverse, and `|m| = 1` takes the draw. -/
theorem modinvWritesTheInverse : Obligations.ModinvWritesTheInverse := by
  intro rd ra rc s
  refine ⟨decode_eq_ok_of_eq_encode (by simp [encode, encodeR]) rfl, exec_modinv_of_modInvalid,
    fun hm hlen hg => (exec_modinv hm hlen).trans (if_neg hg),
    fun hm hlen hg => ⟨_, _, (exec_modinv hm hlen).trans (if_pos hg),
      inverseMag_spec (Config.freeUnit s.draws) (Int.natAbs_ne_zero.mpr hm) hg, ?_, regFrame_writeNum s rd _⟩⟩
  rw [num_count_writeNum_same, mk_xor]

/-- Settles O28: `a` times the result is the sign of `m` modulo `m`, and MODMUL writes the canonical residue of that product. -/
theorem inverseLaw : Obligations.InverseLaw := by
  intro rd re ra rc s hm hlen hg
  obtain ⟨-, -, -, hinv⟩ := modinvWritesTheInverse rd ra rc s
  obtain ⟨t, u, ht, hu, hnum, hframe⟩ := hinv hm hlen hg
  have hmag : s.mag ra * u ≡ 1 [MOD s.mag rc] := by
    split at hu
    case isTrue hone => rw [hone]; exact Nat.modEq_one
    case isFalse =>
      obtain ⟨-, -, hinverse⟩ := hu
      exact hinverse
  have hsign : s.num ra * t.num rd ≡ (s.num rc).sign [ZMOD s.num rc] := hnum ▸ mul_xor_sign_modEq_sign hm hmag
  have hone : 0 < s.num rc → s.num ra * t.num rd ≡ 1 [ZMOD s.num rc] := fun hpos => Int.sign_eq_one_of_pos hpos ▸ hsign
  have hres : 1 < s.num rc → s.num ra * t.num rd % s.num rc = 1 := fun hgt =>
    (hone (by omega)).eq.trans (Int.emod_eq_of_lt one_pos.le hgt)
  refine ⟨t, ht, hone, fun hneg => Int.sign_eq_neg_one_of_neg hneg ▸ hsign, hres, fun hgt hra hrc hcap => ?_⟩
  replace hra : ra ∉ [rd] := by simpa using hra.symm
  replace hrc : rc ∉ [rd] := by simpa using hrc.symm
  obtain ⟨-, -, -, hmul⟩ := modmulWritesTheResidue re ra rd rc t
  rw [hframe.regs ra hra, hframe.regs rc hrc, hframe.len_eq hra, hframe.len_eq hrc, hframe.control.cfg] at hmul
  obtain ⟨w, hw, hwnum, -, -, hwframe⟩ := hmul (by omega) hlen (.inr (.inr hcap))
  exact ⟨w, hw, hwnum.trans (hres hgt), hwframe.control.fault.trans hframe.control.fault⟩
end

section
/-! PROOFS. The bit commands of 46_bits.md: the bit length within SR, one bit and a bit field of a magnitude, the shift, the
increment, the negation and the two parts of a split, and what each command answers. -/

namespace Sys2Proof.Machine

/-! ## Values -/

/-- The bit length of a magnitude within capacity, at most `W*CAP`, fits SR (46_bits.md R230). -/
theorem bitlen_lt_two_pow_width {c : Config} {m : Nat} (h : FitsRegister c m) : bitlen m < 2 ^ c.width := by
  have hle : bitlen m ≤ 1024 + c.width := width_mul_cap c ▸ (bitlen_le_iff _ _).mpr h
  rcases width_cases c with hw | hw <;> rw [hw] at hle ⊢ <;> omega

/-- A bit at or above the represented limbs is 0 (46_bits.md R231). -/
theorem div_two_pow_eq_zero_of_limbs_le {c : Config} {m pos : Nat} (h : c.width * limbs c m ≤ pos) : m / 2 ^ pos = 0 :=
  Nat.div_eq_of_lt ((lt_two_pow_limbs c m).trans_le (Nat.pow_le_pow_right two_pos h))

/-- Both branches of GETBIT are the bit of the magnitude (46_bits.md R231). -/
theorem getBit_eq (c : Config) (a : Int) (pos : Nat) : getBit c a pos = a.natAbs / 2 ^ pos % 2 := by
  rw [getBit, Nat.shiftRight_eq_div_pow]
  split
  · rw [div_two_pow_eq_zero_of_limbs_le ‹_›]
  · rfl

/-- A field of at most `W` bits fits SR. -/
theorem mod_two_pow_lt_two_pow_width (c : Config) (m : Nat) {n : Nat} (h : n ≤ c.width) : m % 2 ^ n < 2 ^ c.width :=
  (Nat.mod_lt _ (Nat.two_pow_pos n)).trans_le (Nat.pow_le_pow_right two_pos h)

/-- A magnitude one larger under the sign of `a` is one further from 0 (46_bits.md R235). -/
theorem mk_isNeg_natAbs_add_one (a : Int) : mk (isNeg a) (a.natAbs + 1) = if a < 0 then a - 1 else a + 1 := by
  simp only [mk_eq, isNeg, decide_eq_true_eq]
  split <;> omega

/-- INC's value (46_bits.md R235). -/
theorem increment_eq (c : Config) (r : Int) :
    increment c r =
      if limbs c (r.natAbs + 1) ≤ c.cap then .ok (if r < 0 then r - 1 else r + 1) else .error .capacity := by
  simp only [increment, fit_eq, mk_isNeg_natAbs_add_one, limbs_le_iff _ _ _ (cap_pos c)]

/-- Of the magnitudes within capacity only the greatest overflows when it grows by 1 (46_bits.md R235). -/
theorem cap_lt_limbs_add_one_iff {c : Config} {m : Nat} (h : FitsRegister c m) :
    c.cap < limbs c (m + 1) ↔ m = 2 ^ (c.width * c.cap) - 1 := by
  rw [← not_le, limbs_le_iff c _ _ (cap_pos c)]
  unfold FitsRegister at h
  omega

/-- Both branches of SPLIT are the truncating remainder and quotient by `2^p` (46_bits.md R238). -/
theorem splitParts_eq (a : Int) (p : Nat) : splitParts a p = (a.tmod (2 ^ p), a.tdiv (2 ^ p)) := by
  rw [splitParts, ← mk_mod_two_pow, ← mk_shiftRight]
  split
  case isTrue h =>
    have hlt := (bitlen_le_iff _ _).mp h
    rw [Nat.mod_eq_of_lt hlt, mk_isNeg_natAbs, Nat.shiftRight_eq_div_pow, Nat.div_eq_of_lt hlt]
    rfl
  case isFalse => rfl

/-! ## What each command answers -/

/-- GETBITS: BIT_COUNT, or the bit field goes to SR. -/
theorem exec_getbits (ra : Reg) (off cnt : Nat) (s : State) :
    exec (.getbits ra off cnt) s =
      if s.cfg.width < cnt then .next (s.enterFault .bitCount (encode (.getbits ra off cnt)))
      else s.answer (srWord s.cfg (s.mag ra / 2 ^ off % 2 ^ cnt)) := by
  rw [exec, execGetbits, State.raise_eq, Nat.shiftRight_eq_div_pow]

/-- SHR: SHIFT_RANGE, or the low bits go to SR and the truncating quotient to the register. -/
theorem exec_shr (rd : Reg) (sh : Nat) (s : State) :
    exec (.shr rd sh) s =
      if s.cfg.width ≤ sh then .next (s.enterFault .shiftRange (encode (.shr rd sh)))
      else .next ((s.setSr (srWord s.cfg (s.mag rd % 2 ^ sh))).writeNum rd ((s.num rd).tdiv (2 ^ sh))).count := by
  rw [exec, execShr, State.raise_eq, State.complete_eq, shiftRight, mk_shiftRight]

/-- INC: the value one further from 0 is written when it needs at most CAP limbs, else CAPACITY is raised. -/
theorem exec_inc (rd : Reg) (s : State) :
    exec (.inc rd) s =
      if limbs s.cfg (s.mag rd + 1) ≤ s.cfg.cap then
        .next (s.writeNum rd (if s.num rd < 0 then s.num rd - 1 else s.num rd + 1)).count
      else .next (s.enterFault .capacity (encode (.inc rd))) :=
  (congrArg (s.commit _ rd) (increment_eq s.cfg (s.num rd))).trans (s.commit_ite _ _ _ _ _)

/-- NEG: the negated value is written. -/
theorem exec_neg (rd : Reg) (s : State) : exec (.neg rd) s = .next (s.writeNum rd (-s.num rd)).count := by
  rw [exec, execNeg, negate, mk_not_isNeg_natAbs, State.complete_eq]

/-- SPLIT: SPLIT_ALIAS, then SPLIT_POS, or the truncating remainder and quotient are written. -/
theorem exec_split (rd rb ra : Reg) (p : Nat) (s : State) :
    exec (.split rd rb ra p) s =
      if rd = rb then .next (s.enterFault .splitAlias (encode (.split rd rb ra p)))
      else if p = 0 then .next (s.enterFault .splitPos (encode (.split rd rb ra p)))
      else .next ((s.writeNum rd ((s.num ra).tmod (2 ^ p))).writeNum rb ((s.num ra).tdiv (2 ^ p))).count := by
  simp only [exec, execSplit, splitParts_eq, State.raise_eq, State.complete_eq]

/-- The frame of a command that writes two number registers and completes. -/
theorem regFrame_writeNum_writeNum (s : State) (rd rb : Reg) (x y : Int) :
    RegFrame [rd, rb] s ((s.writeNum rd x).writeNum rb y).count where
  ccnt := rfl
  control := ⟨rfl, rfl, rfl, rfl, rfl, rfl, rfl⟩
  sr := rfl
  buf _ := rfl
  regs r hr := by
    obtain ⟨hrd, hrb⟩ : r ≠ rd ∧ r ≠ rb := by simpa using hr
    rw [State.num_count, State.num_writeNum, if_neg hrb, State.num_writeNum, if_neg hrd]

end Sys2Proof.Machine

open Sys2Proof Sys2Proof.Machine

/-- Settles O29: within capacity the bit length fits SR, and it is the least `k` with the magnitude below `2^k`. -/
theorem blenAnswersTheBitLength : Obligations.BlenAnswersTheBitLength := by
  intro ra s
  refine ⟨decode_eq_ok_of_eq_encode (by simp [encode, encodeR]) rfl, fun h => ?_⟩
  obtain ⟨t, ht, hsr, hframe⟩ :=
    exists_srFrame_of_exec_eq_answer (i := .blen ra) rfl (srWord_toNat _ (bitlen_lt_two_pow_width h))
  exact ⟨t, ht, fun k => hsr ▸ bitlen_le_iff (s.mag ra) k, hframe⟩

/-- Settles O30: the bits beyond the represented limbs are 0, so one formula gives every bit. -/
theorem getbitAnswersTheBit : Obligations.GetbitAnswersTheBit := by
  intro ra pos s
  have hbit : getBit s.cfg (s.num ra) pos < 2 ^ s.cfg.width :=
    getBit_eq s.cfg _ pos ▸ (Nat.mod_lt _ two_pos).trans_le (two_le_two_pow_width s.cfg)
  obtain ⟨t, ht, hsr, hframe⟩ :=
    exists_srFrame_of_exec_eq_answer (i := .getbit ra pos) rfl ((srWord_toNat _ hbit).trans (getBit_eq _ _ _))
  refine ⟨fun hpos => decode_eq_ok_of_eq_encode (by simp [encode, encodeB]) (by simp [Instr.WellFormed, hpos]),
    t, ht, hsr, fun hlen => hsr.trans ?_, hframe⟩
  exact congrArg (· % 2) (div_two_pow_eq_zero_of_limbs_le hlen)

/-- Settles O31: a field of at most `W` bits fits SR. -/
theorem getbitsAnswersTheField : Obligations.GetbitsAnswersTheField := by
  intro ra off cnt s
  exact ⟨fun hoff hcnt => decode_eq_ok_of_eq_encode (by simp [encode, encodeG]) (by simp [Instr.WellFormed, hoff, hcnt]),
    fun h => (exec_getbits ra off cnt s).trans (if_pos h),
    fun h => exists_srFrame_of_exec_eq_answer ((exec_getbits ra off cnt s).trans (if_neg h.not_gt))
      (srWord_toNat _ (mod_two_pow_lt_two_pow_width _ _ h))⟩

/-- Settles O32: the magnitude shifted under its sign is the truncating quotient, and the bits shifted out fit SR. -/
theorem shrShiftsTheMagnitude : Obligations.ShrShiftsTheMagnitude := by
  intro rd sh s
  refine ⟨fun hsh => decode_eq_ok_of_eq_encode (by simp [encode, encodeB]) (by simp [Instr.WellFormed, hsh]),
    fun h => (exec_shr rd sh s).trans (if_pos h),
    fun h => ⟨_, (exec_shr rd sh s).trans (if_neg h.not_ge), num_count_writeNum_same _ _ _,
      srWord_toNat _ (mod_two_pow_lt_two_pow_width _ _ h.le), ?_⟩⟩
  have hframe := regFrame_writeNum (s.setSr (srWord s.cfg (s.mag rd % 2 ^ sh))) rd ((s.num rd).tdiv (2 ^ sh))
  exact ⟨hframe.ccnt, ⟨rfl, rfl, rfl, rfl, rfl, rfl, rfl⟩, hframe.buf, hframe.regs⟩

/-- Settles O33: a magnitude below `2^(W*CAP)` plus 1 is `2^(W*CAP)` or fits. -/
theorem incAddsToTheMagnitude : Obligations.IncAddsToTheMagnitude := by
  intro rd s
  exact ⟨decode_eq_ok_of_eq_encode (by simp [encode, encodeR]) rfl,
    fun h => (exec_inc rd s).trans (if_neg h.not_ge),
    fun h => ⟨_, (exec_inc rd s).trans (if_pos h), num_count_writeNum_same s rd _, regFrame_writeNum s rd _⟩,
    cap_lt_limbs_add_one_iff⟩

/-- Settles O34: the sign flipped on the magnitude is the negation. -/
theorem negFlipsTheSign : Obligations.NegFlipsTheSign := by
  intro rd s
  exact ⟨decode_eq_ok_of_eq_encode (by simp [encode, encodeR]) rfl,
    _, exec_neg rd s, num_count_writeNum_same s rd _, regFrame_writeNum s rd _⟩

/-- Settles O35: remainder and quotient by `2^p` add up to the value, and the source is read before both writes. -/
theorem splitCutsTheMagnitude : Obligations.SplitCutsTheMagnitude := by
  intro rd rb ra p s
  refine ⟨fun hp => decode_eq_ok_of_eq_encode (by simp [encode, encodeB]) (by simp [Instr.WellFormed, hp]),
    fun h => (exec_split rd rb ra p s).trans (if_pos h),
    fun hne h => ((exec_split rd rb ra p s).trans (if_neg hne)).trans (if_pos h),
    fun hne h => ⟨_, ((exec_split rd rb ra p s).trans (if_neg hne)).trans (if_neg h.ne'), ?_⟩⟩
  have hlow : ((s.writeNum rd ((s.num ra).tmod (2 ^ p))).writeNum rb ((s.num ra).tdiv (2 ^ p))).count.num rd =
      (s.num ra).tmod (2 ^ p) := by
    rw [State.num_count, State.num_writeNum, if_neg hne, State.num_writeNum, if_pos rfl]
  rw [hlow, num_count_writeNum_same]
  exact ⟨rfl, rfl, Int.tmod_add_tdiv_mul _ _, regFrame_writeNum_writeNum s rd rb _ _⟩
end

section
/-! PROOFS. The faulted and the idle core of 60_exceptions.md: an access at its register's own width reaches that register, and
what a command word, a read and a write of BUF then do. -/

namespace Sys2Proof.Machine

/-- A register accessed at its own width is found (20_memory.md R67). -/
theorem portFor_portWidth {c : Config} {addr : Nat} {p : Port} (h : portOf c addr = some p) :
    portFor c addr (portWidth c p) = .ok p := by
  simp only [portFor, h, if_pos]

/-- The step at a read of a register at its own width replies the register's content. -/
theorem step_read_port {s : State} {addr : Nat} {p : Port} {rest : List HostAccess} (hp : portOf s.cfg addr = some p)
    (h : s.inbox = .read addr (portWidth s.cfg p) :: rest) :
    step s = .next ((s.setInbox rest).reply { addr := addr, width := portWidth s.cfg p, data := s.portValue p }) := by
  rw [step_cons s h]
  simp only [State.hostAccess, State.setInbox_cfg, portFor_portWidth hp]
  -- `portValue` does not read `inbox`
  cases p <;> rfl

/-- The step at a write of a register at its own width performs that register's write. -/
theorem step_write_port {s : State} {addr : Nat} {p : Port} {d : Word64} {rest : List HostAccess}
    (hp : portOf s.cfg addr = some p) (h : s.inbox = .write addr (portWidth s.cfg p) d :: rest) :
    step s = (s.setInbox rest).portWrite d p := by
  rw [step_cons s h]
  simp only [State.hostAccess, State.setInbox_cfg, portFor_portWidth hp]

/-- Byte `k` of BUF stands at offset `0x100 + k` (20_memory.md R66). -/
theorem portOf_buf (c : Config) {k : Nat} (hk : k < 256) : portOf c (c.hostBase + 0x100 + k) = some (.buf k) := by
  rw [Nat.add_assoc, portOf_add, portAt_buf (by omega) (by omega), Nat.add_sub_cancel_left]

/-- The step at a write of a byte of BUF stores it, whether or not the core is faulted. -/
theorem step_write_buf {s : State} {k : Nat} {d : Word64} {rest : List HostAccess} (hk : k < 256)
    (h : s.inbox = .write (s.cfg.hostBase + 0x100 + k) 8 d :: rest) :
    step s = .next ((s.setInbox rest).writeByte k (d.setWidth 8)) :=
  step_write_port (portOf_buf s.cfg hk) h

/-- While FAULT is 1 a command word is discarded, legal or not (60_exceptions.md R270). -/
theorem issue_of_faulted {s : State} (h : s.fault ≠ none) (w : Word32) : s.issue w = .next s.discard :=
  if_pos (Option.isSome_iff_ne_none.mpr h)

end Sys2Proof.Machine

open Sys2Proof Sys2Proof.Machine

/-- Settles O39: the discard stands before decoding, and no other access of the window looks at FAULT. -/
theorem faultedCoreDiscards : Obligations.FaultedCoreDiscards := by
  intro s rest hfault
  refine ⟨fun w h => ?_, fun addr p hp h => step_read_port hp h, fun k d hk h => ?_⟩
  · rw [step_cmd s w h]
    exact issue_of_faulted (s := s.setInbox rest) hfault w
  · refine ⟨_, step_write_buf hk h, ?_, fun a ha => ?_, rfl⟩
    · rw [State.readByte_writeByte, if_pos rfl]
    · rw [State.readByte_writeByte, if_neg ha]
      rfl

/-- Settles O46: with nothing waiting at the port the next access is none. -/
theorem idleCoreHoldsItsState : Obligations.IdleCoreHoldsItsState := step_nil
end

section
/-! PROOFS. The invariant of the machine: each update of the state keeps it, so every command and every step does; and what every
command, fault or completion, leaves of STATUS, FCMD, CCNT and the parameters. -/

namespace Sys2Proof.Machine

/-! ## The updates that keep the invariant -/

section
variable {s : State} (h : s.Inv)
include h

theorem State.Inv.count : s.count.Inv := ⟨h.regs, h.sr, h.buf, h.fcmd, h.lost, h.code⟩

theorem State.Inv.setInbox (l : List HostAccess) : (s.setInbox l).Inv := ⟨h.regs, h.sr, h.buf, h.fcmd, h.lost, h.code⟩

theorem State.Inv.reply (r : HostReply) : (s.reply r).Inv := ⟨h.regs, h.sr, h.buf, h.fcmd, h.lost, h.code⟩

theorem State.Inv.setSr {v : Word64} (hv : v.toNat < 2 ^ s.cfg.width) : (s.setSr v).Inv :=
  ⟨h.regs, hv, h.buf, h.fcmd, h.lost, h.code⟩

/-- A register written with a value within capacity (10_state.md R33). -/
theorem State.Inv.writeNum (rd : Reg) {v : Int} (hv : FitsRegister s.cfg v.natAbs) : (s.writeNum rd v).Inv where
  regs r := by
    rw [State.mag, State.num_writeNum]
    split
    · exact hv
    · exact h.regs r
  sr := h.sr
  buf := h.buf
  fcmd := h.fcmd
  lost := h.lost
  code := h.code

theorem State.Inv.zeroize (rd : Reg) : (s.zeroize rd).Inv where
  regs r := by
    rw [State.mag, State.num_zeroize]
    split
    · exact Nat.two_pow_pos _
    · exact h.regs r
  sr := h.sr
  buf := h.buf
  fcmd := h.fcmd
  lost := h.lost
  code := h.code

/-- A field inside BUF written (20_memory.md R60). -/
theorem State.Inv.memWrite {addr : Nat} {bs : List Byte} (hb : addr + bs.length ≤ 256) : (s.memWrite addr bs).Inv where
  regs r := by simpa [State.mag] using h.regs r
  sr := by simpa using h.sr
  buf := s.wf_memWrite h.buf addr bs hb
  fcmd := by simpa using h.fcmd
  lost := by simpa using h.lost
  code := by simpa using h.code

theorem State.Inv.writeByte {k : Nat} (hk : k < 256) (b : Byte) : (s.writeByte k b).Inv :=
  ⟨h.regs, h.sr, Memory.wf_write h.buf hk b, h.fcmd, h.lost, h.code⟩

/-- Fault entry: from then on FAULT is 1, and nothing is said of FCMD and LOST. -/
theorem State.Inv.enterFault {f : FaultCode} (hf : f ≠ .magSub) (w : Word32) : (s.enterFault f w).Inv :=
  ⟨h.regs, h.sr, h.buf, nofun, nofun, fun hm => hf (Option.some.inj hm)⟩

/-- LOST is set only while FAULT is 1 (60_exceptions.md R270). -/
theorem State.Inv.discard (hf : s.fault ≠ none) : s.discard.Inv :=
  ⟨h.regs, h.sr, h.buf, h.fcmd, fun hn => absurd hn hf, h.code⟩

end

/-- The state of power-on keeps the invariant, whatever the parameters. -/
theorem inv_powerOn (c : Config) : (State.powerOn c).Inv where
  regs r := by
    rw [State.mag, State.num, State.powerOn, regs_replicate_get]
    exact Nat.two_pow_pos _
  sr := Nat.two_pow_pos _
  buf := Memory.wf_nil
  fcmd _ := rfl
  lost _ := rfl
  code := nofun

/-- A reset establishes the invariant, whatever state it meets: it is that of power-on but for fields of which the invariant says
nothing. -/
theorem inv_hwReset (s : State) : s.hwReset.Inv :=
  have h := inv_powerOn s.cfg
  ⟨h.regs, h.sr, h.buf, h.fcmd, h.lost, h.code⟩

/-! ## Commands -/

/-- A command keeps the invariant. -/
theorem ExecCase.inv {i : Instr} {s t : State} (hc : ExecCase i s t) (h : s.Inv) : t.Inv := by
  cases hc with
  | fault f hf => exact h.enterFault hf _
  | answer v hv => exact (h.setSr hv).count
  | write rd v hv => exact (h.writeNum rd (hv h.regs)).count
  | store addr bs hb => exact (h.memWrite hb).count
  | shift rd v x hv hx => exact ((h.setSr hv).writeNum rd (fits_of_le (h.regs rd) hx)).count
  | split rd rb ra x y hx hy =>
    exact ((h.writeNum rd (fits_of_le (h.regs ra) hx)).writeNum rb (fits_of_le (h.regs ra) hy)).count
  | clear rd => exact (h.zeroize rd).count

/-- A command ends in fault entry, with another code than MAG_SUB, or it counts and leaves STATUS, FCMD, the parameters and the
port as they were. -/
theorem ExecCase.fault_or_sameControl {i : Instr} {s t : State} (hc : ExecCase i s t) :
    (∃ f, f ≠ .magSub ∧ t = s.enterFault f (encode i)) ∨ (t.ccnt = s.ccnt + 1 ∧ SameControl s t) := by
  cases hc with
  | fault f hf => exact .inl ⟨f, hf, rfl⟩
  | answer v => exact .inr ⟨rfl, rfl, rfl, rfl, rfl, rfl, rfl, rfl⟩
  | write rd v => exact .inr ⟨rfl, rfl, rfl, rfl, rfl, rfl, rfl, rfl⟩
  | store addr bs => exact .inr ⟨(storeFrame_memWrite s addr rfl).ccnt, (storeFrame_memWrite s addr rfl).control⟩
  | shift rd v x => exact .inr ⟨rfl, rfl, rfl, rfl, rfl, rfl, rfl, rfl⟩
  | split rd rb ra x y => exact .inr ⟨rfl, rfl, rfl, rfl, rfl, rfl, rfl, rfl⟩
  | clear rd => exact .inr ⟨rfl, rfl, rfl, rfl, rfl, rfl, rfl, rfl⟩

/-- What a command answers is one of the ways a command can end. -/
theorem execCase_of_exec {i : Instr} {s t : State} (h : exec i s = .next t) : ExecCase i s t := by
  obtain ⟨u, hu, hc⟩ := exec_cases i s
  obtain rfl : u = t := Host.Outcome.next.inj (hu.symm.trans h)
  exact hc

theorem ExecCase.cfg_eq {i : Instr} {s t : State} (hc : ExecCase i s t) : t.cfg = s.cfg := by
  obtain ⟨f, -, rfl⟩ | ⟨-, hctl⟩ := hc.fault_or_sameControl
  · rfl
  · exact hctl.cfg

theorem ExecCase.inbox_eq {i : Instr} {s t : State} (hc : ExecCase i s t) : t.inbox = s.inbox := by
  obtain ⟨f, -, rfl⟩ | ⟨-, hctl⟩ := hc.fault_or_sameControl
  · rfl
  · exact hctl.inbox

/-! ## Steps -/

/-- The ways a step that answers a next state can go; `IssueCase` says what a command word does. -/
inductive StepNext (s : State) : State → Prop
  | idle (h : s.inbox = []) : StepNext s s
  | ignore (rest : List HostAccess) (a : HostAccess) (h : s.inbox = a :: rest) : StepNext s (s.setInbox rest)
  | reply (rest : List HostAccess) (a : HostAccess) (h : s.inbox = a :: rest) (r : HostReply) :
      StepNext s ((s.setInbox rest).reply r)
  | store (rest : List HostAccess) (a : HostAccess) (h : s.inbox = a :: rest) (k : Nat) (b : Byte) (hk : k < 256) :
      StepNext s ((s.setInbox rest).writeByte k b)
  | reset (rest : List HostAccess) (a : HostAccess) (h : s.inbox = a :: rest) (ha : IsResetWrite s.cfg a) :
      StepNext s (s.setInbox rest).hwReset
  | issue (rest : List HostAccess) (a : HostAccess) (h : s.inbox = a :: rest) (w : Word32) (t : State)
      (hw : IssueCase (s.setInbox rest) w (.next t)) : StepNext s t

/-- A step that answers a next state goes one of these ways. -/
theorem stepNext_of_step {s t : State} (ht : step s = .next t) : StepNext s t := by
  have hc := step_cases s
  rw [ht] at hc
  generalize hr : (Host.Outcome.next t : Result) = r at hc
  cases hc with
  | idle h => obtain rfl := Host.Outcome.next.inj hr; exact .idle h
  | refuse r => cases hr
  | ignore rest a h => obtain rfl := Host.Outcome.next.inj hr; exact .ignore rest a h
  | reply rest a h r => obtain rfl := Host.Outcome.next.inj hr; exact .reply rest a h r
  | store rest a h k b hk => obtain rfl := Host.Outcome.next.inj hr; exact .store rest a h k b hk
  | reset rest a h ha => obtain rfl := Host.Outcome.next.inj hr; exact .reset rest a h ha
  | issue rest a h w => exact .issue rest a h w t (hr ▸ issue_cases _ w)

/-- A command word that arrives keeps the invariant, performed or not. -/
theorem IssueCase.inv {s t : State} {w : Word32} (hc : IssueCase s w (.next t)) (h : s.Inv) : t.Inv := by
  cases hc with
  | discard hf => exact h.discard hf
  | illegal _ e hd => exact h.enterFault (by decide) w
  | run _ i hd _ ht hc => exact hc.inv h

/-- A command word that arrives leaves the parameters as they are. -/
theorem IssueCase.cfg_eq {s t : State} {w : Word32} (hc : IssueCase s w (.next t)) : t.cfg = s.cfg := by
  cases hc with
  | discard hf => rfl
  | illegal _ e hd => rfl
  | run _ i hd _ ht hc => exact hc.cfg_eq

/-- A step keeps the invariant. -/
theorem StepNext.inv {s t : State} (hs : StepNext s t) (h : s.Inv) : t.Inv := by
  cases hs with
  | idle _ => exact h
  | ignore rest a _ => exact h.setInbox rest
  | reply rest a _ r => exact (h.setInbox rest).reply r
  | store rest a _ k b hk => exact (h.setInbox rest).writeByte hk b
  | reset rest a _ _ => exact inv_hwReset _
  | issue rest a _ w _ hw => exact hw.inv (h.setInbox rest)

/-- A step leaves the parameters as they are. -/
theorem StepNext.cfg_eq {s t : State} (hs : StepNext s t) : t.cfg = s.cfg := by
  cases hs with
  | issue rest a _ w _ hw => exact hw.cfg_eq
  | _ => rfl

end Sys2Proof.Machine

open Sys2Proof Sys2Proof.Machine

/-- Settles O53: each update that a step is made of keeps the invariant. -/
theorem everyStepKeepsInv : Obligations.EveryStepKeepsInv :=
  fun _ _ h ht => (stepNext_of_step ht).inv h

/-- Settles O52: power-on leaves every register 0, BUF unwritten and FAULT 0. -/
theorem invHoldsAtReset : Obligations.InvHoldsAtReset :=
  ⟨rfl, inv_powerOn Config.standard, inv_powerOn⟩

/-- Settles O51: a reset keeps the parameters, and nothing else writes them. -/
theorem parametersNeverChange : Obligations.ParametersNeverChange :=
  fun _ _ ht => (stepNext_of_step ht).cfg_eq

/-- Settles O47: fault entry and the completion of a command are the only two ends of it. -/
theorem commandsCompleteOrFaultPrecisely : Obligations.CommandsCompleteOrFaultPrecisely := by
  intro i s
  obtain ⟨t, ht, hc⟩ := exec_cases i s
  obtain ⟨f, -, rfl⟩ | hdone := hc.fault_or_sameControl
  · exact .inr ⟨f, ht⟩
  · exact .inl ⟨t, ht, hdone⟩

/-- Settles O20: the code of a fault entry is another one, and a command that completes leaves FAULT. -/
theorem noCommandRaisesMagSub : Obligations.NoCommandRaisesMagSub := by
  intro i s t ht hs
  obtain ⟨f, hf, rfl⟩ | ⟨-, hctl⟩ := (execCase_of_exec ht).fault_or_sameControl
  · exact fun h => hf (Option.some.inj h)
  · rwa [hctl.fault]
end

section
/-! PROOFS. Runs of the machine: what a step keeps while FAULT is 1 (60_exceptions.md R268 to R271), and how a sequence of command
words goes through (70_reset_and_hazards.md R297). -/

namespace Sys2Proof.Machine

/-! ## The faulted core -/

/-- What stays from `s` to `t` while FAULT is 1: the fault and its command word, the registers, SR, CCNT and the parameters; and no
access comes to the port. -/
structure FaultHeld (s t : State) : Prop where
  fault : t.fault = s.fault
  fcmd  : t.fcmd = s.fcmd
  regs  : t.regs = s.regs
  sr    : t.sr = s.sr
  ccnt  : t.ccnt = s.ccnt
  cfg   : t.cfg = s.cfg
  inbox : t.inbox ⊆ s.inbox

theorem FaultHeld.refl (s : State) : FaultHeld s s := ⟨rfl, rfl, rfl, rfl, rfl, rfl, List.Subset.refl _⟩

theorem FaultHeld.trans {s t u : State} (h : FaultHeld s t) (h' : FaultHeld t u) : FaultHeld s u :=
  ⟨h'.fault.trans h.fault, h'.fcmd.trans h.fcmd, h'.regs.trans h.regs, h'.sr.trans h.sr, h'.ccnt.trans h.ccnt,
    h'.cfg.trans h.cfg, List.Subset.trans h'.inbox h.inbox⟩

/-- An access taken from the port. -/
theorem FaultHeld.setInbox {s : State} {a : HostAccess} {rest : List HostAccess} (h : s.inbox = a :: rest) :
    FaultHeld s (s.setInbox rest) :=
  ⟨rfl, rfl, rfl, rfl, rfl, rfl, h ▸ List.subset_cons_self a rest⟩

/-- A step of a faulted core with no reset waiting holds the fault: a command word is discarded, and reads and writes of BUF reach
nothing that is held. -/
theorem FaultHeld.of_step {s t : State} (hf : s.fault ≠ none) (hr : ∀ a ∈ s.inbox, ¬IsResetWrite s.cfg a)
    (ht : step s = .next t) : FaultHeld s t := by
  cases stepNext_of_step ht with
  | idle h => exact .refl s
  | ignore rest a h => exact .setInbox h
  | reply rest a h r => exact (FaultHeld.setInbox h).trans ⟨rfl, rfl, rfl, rfl, rfl, rfl, List.Subset.refl _⟩
  | store rest a h k b hk => exact (FaultHeld.setInbox h).trans ⟨rfl, rfl, rfl, rfl, rfl, rfl, List.Subset.refl _⟩
  | reset rest a h ha => exact absurd ha (hr a (h ▸ List.mem_cons_self))
  | issue rest a h w _ hw =>
    cases hw with
    | discard _ => exact (FaultHeld.setInbox h).trans ⟨rfl, rfl, rfl, rfl, rfl, rfl, List.Subset.refl _⟩
    | illegal hn e hd => exact absurd hn hf
    | run hn i hd _ he hc => exact absurd hn hf

/-- A run of a faulted core with no reset waiting holds the fault. -/
theorem FaultHeld.of_run (k : Nat) {s t : State} (hf : s.fault ≠ none) (hr : ∀ a ∈ s.inbox, ¬IsResetWrite s.cfg a)
    (ht : Host.Core.run core k s = .next t) : FaultHeld s t := by
  induction k generalizing s with
  | zero =>
    obtain rfl : s = t := Host.Outcome.next.inj ht
    exact .refl s
  | succ k ih =>
    obtain ⟨u, hu, hrun⟩ := run_succ k ht
    have hstep := FaultHeld.of_step hf hr hu
    refine hstep.trans (ih (hstep.fault ▸ hf) (fun a ha => ?_) hrun)
    rw [hstep.cfg]
    exact hr a (hstep.inbox ha)

/-! ## A sequence of command words -/

/-- A command word that arrives always goes through; if FAULT is 0 after it, then FAULT was 0 before and the word was performed. -/
theorem issue_next (s : State) (w : Word32) :
    ∃ t, s.issue w = .next t ∧ t.cfg = s.cfg ∧ t.inbox = s.inbox ∧
      (t.fault = none → s.fault = none ∧ t.ccnt = s.ccnt + 1 ∧ t.lost = s.lost) := by
  have hc := issue_cases s w
  generalize s.issue w = r at hc
  cases hc with
  | discard hf => exact ⟨_, rfl, rfl, rfl, fun h => absurd h hf⟩
  | illegal hf e hd => exact ⟨_, rfl, rfl, rfl, nofun⟩
  | run hf i hd t he hc =>
    refine ⟨t, rfl, hc.cfg_eq, hc.inbox_eq, fun ht => ⟨hf, ?_⟩⟩
    obtain ⟨f, -, rfl⟩ | ⟨hccnt, hctl⟩ := hc.fault_or_sameControl
    · cases ht
    · exact ⟨hccnt, hctl.lost⟩

/-- A run over waiting command words answers a state, from any state; if FAULT is 0 in it, then FAULT was 0 before and each word was
performed. -/
theorem run_cmdWrites (ws : List Word32) {s : State} (h : s.inbox = ws.map (cmdWrite s.cfg)) :
    ∃ t, Host.Core.run core ws.length s = .next t ∧
      (t.fault = none → s.fault = none ∧ t.ccnt = s.ccnt + BitVec.ofNat 64 ws.length ∧ t.lost = s.lost) := by
  induction ws generalizing s with
  | nil => exact ⟨s, rfl, fun hf => ⟨hf, (BitVec.add_zero _).symm, rfl⟩⟩
  | cons w ws ih =>
    obtain ⟨u, hu, hcfg, hinbox, hword⟩ := issue_next (s.setInbox (ws.map (cmdWrite s.cfg))) w
    obtain ⟨t, ht, hrest⟩ := ih (s := u) (by rw [hinbox, hcfg]; rfl)
    refine ⟨t, (run_next ws.length ((step_cmd s w h).trans hu)).trans ht, fun hf => ?_⟩
    obtain ⟨hfu, hccnt, hlost⟩ := hrest hf
    obtain ⟨hfs, hccntu, hlostu⟩ := hword hfu
    refine ⟨hfs, ?_, hlost.trans hlostu⟩
    rw [hccnt, hccntu, List.length_cons, BitVec.ofNat_add, BitVec.add_comm (BitVec.ofNat 64 ws.length), ← BitVec.add_assoc]
    rfl

end Sys2Proof.Machine

open Sys2Proof Sys2Proof.Machine

/-- Settles O54: each step of the run holds what the state it starts from holds. -/
theorem faultIsStickyUntilReset : Obligations.FaultIsStickyUntilReset := by
  intro k s t f hf hr ht
  have h := FaultHeld.of_run k (hf ▸ Option.some_ne_none f) hr ht
  exact ⟨h.fault.trans hf, h.fcmd, h.regs, h.sr, h.ccnt⟩

/-- Settles O55: a fault on the way would still be recorded at the end, so no word was discarded or illegal. -/
theorem completedCommandsAreCounted : Obligations.CompletedCommandsAreCounted := by
  intro ws s _ hin
  obtain ⟨t, ht, hdone⟩ := run_cmdWrites ws hin
  exact ⟨t, ht, fun hf => (hdone hf).2⟩
end

section
/-! PROOFS. What a command may write: SR, its destinations and the field of a store (10_state.md R35, R37; 20_memory.md R77). -/

namespace Sys2Proof

/-- The number registers a command writes (10_state.md R35). -/
def Instr.destinations : Instr → List Reg
  | .zero rd | .mov rd _ | .ldb rd _ _ | .ldw rd _ | .ldh rd _ _ | .add rd _ _ | .sub rd _ _ | .mul rd _ _ | .div rd _ _ => [rd]
  | .modmul rd _ _ _ | .modred rd _ | .modinv rd _ _ | .shr rd _ | .inc rd | .neg rd => [rd]
  | .split rd rb _ _ => [rd, rb]
  | .stb _ _ _ | .sth _ _ _ | .cmpm _ _ | .eq _ _ | .isz _ | .isodd _ | .isneg _ | .blen _ | .getbit _ _ | .getbits _ _ _ => []

/-- The commands that write SR (10_state.md R37). -/
def Instr.writesSr : Instr → Bool
  | .cmpm _ _ | .eq _ _ | .isz _ | .isodd _ | .isneg _ | .blen _ | .getbit _ _ | .getbits _ _ _ | .shr _ _ => true
  | _ => false

/-- `a` is no byte of the field that a command stores to (20_memory.md R77). -/
def Instr.OutsideField (i : Instr) (a : Nat) : Prop :=
  match i with
  | .stb _ addr len | .sth _ addr len => a < addr ∨ addr + len ≤ a
  | _ => True

namespace Machine

/-- Of SR, the number registers and BUF, `t` differs from `s` only in what the command `i` may write. -/
structure WritesOnly (i : Instr) (s t : State) : Prop where
  sr   : i.writesSr = false → t.sr = s.sr
  regs : SameRegsBut i.destinations s t
  buf  : ∀ a, i.OutsideField a → t.readByte a = s.readByte a

section
variable {i : Instr} {s t : State} {rd : Reg}

/-- A fault entry writes nothing of them. -/
theorem WritesOnly.of_raise {f : FaultCode} {w : Word32} (h : s.raise f w = .next t) : WritesOnly i s t := by
  obtain rfl := Host.Outcome.next.inj h
  exact ⟨fun _ => rfl, fun _ _ => rfl, fun _ _ => rfl⟩

theorem WritesOnly.of_regFrame {ds : List Reg} (hi : i.destinations = ds) (h : RegFrame ds s t) : WritesOnly i s t :=
  ⟨fun _ => h.sr, hi ▸ h.regs, fun a _ => h.buf a⟩

theorem WritesOnly.of_writeNum {v : Int} (hi : i.destinations = [rd]) (h : (s.writeNum rd v).complete = .next t) :
    WritesOnly i s t := by
  obtain rfl := Host.Outcome.next.inj h
  exact .of_regFrame hi (regFrame_writeNum s rd v)

theorem WritesOnly.of_commit {w : Word32} {e : Except FaultCode Int} (hi : i.destinations = [rd])
    (h : s.commit w rd e = .next t) : WritesOnly i s t := by
  cases e with
  | ok v => exact .of_writeNum hi h
  | error f => exact .of_raise h

theorem WritesOnly.of_answer {v : Word64} (hi : i.writesSr = true) (h : s.answer v = .next t) : WritesOnly i s t := by
  obtain rfl := Host.Outcome.next.inj h
  exact ⟨fun hn => by simp [hi] at hn, fun _ _ => rfl, fun _ _ => rfl⟩

theorem WritesOnly.of_memWrite {addr n : Nat} {bs : List Byte} (hi : ∀ a, i.OutsideField a → a < addr ∨ addr + n ≤ a)
    (hn : bs.length = n) (h : (s.memWrite addr bs).complete = .next t) : WritesOnly i s t := by
  obtain rfl := Host.Outcome.next.inj h
  have hframe := storeFrame_memWrite s addr hn
  exact ⟨fun _ => hframe.sr, fun r _ => hframe.regs r List.not_mem_nil, fun a ha => hframe.buf a (hi a ha)⟩

end

/-- A command writes SR, number registers and BUF only where it may, whether it faults or completes. -/
theorem writesOnly_of_exec {i : Instr} {s t : State} (h : exec i s = .next t) : WritesOnly i s t := by
  cases i with
  | zero rd =>
    obtain rfl := Host.Outcome.next.inj h
    exact .of_regFrame rfl (regFrame_zeroize s rd)
  | mov rd ra => exact .of_writeNum rfl h
  | ldb rd addr len =>
    simp only [exec, execLdb] at h
    split at h
    · exact .of_raise h
    · exact .of_writeNum rfl h
  | stb ra addr len =>
    simp only [exec, execStb] at h
    split at h
    · exact .of_raise h
    · split at h
      · exact .of_raise h
      · exact .of_memWrite (fun _ => id) (by simp) h
  | ldw rd addr =>
    simp only [exec, execLdw] at h
    split at h
    · exact .of_raise h
    · exact .of_writeNum rfl h
  | ldh rd addr len =>
    simp only [exec, execLdh] at h
    split at h
    · exact .of_raise h
    · exact .of_writeNum rfl h
  | sth ra addr len =>
    simp only [exec, execSth] at h
    split at h
    · exact .of_raise h
    · split at h
      · exact .of_raise h
      · exact .of_memWrite (fun _ => id) (by simp) h
  | cmpm ra rb => exact .of_answer rfl h
  | eq ra rb => exact .of_answer rfl h
  | isz ra => exact .of_answer rfl h
  | isodd ra => exact .of_answer rfl h
  | isneg ra => exact .of_answer rfl h
  | add rd ra rb => exact .of_commit rfl h
  | sub rd ra rb => exact .of_commit rfl h
  | mul rd ra rb => exact .of_commit rfl h
  | div rd ra rb => exact .of_commit rfl h
  | modmul rd ra rb rc => exact .of_commit rfl h
  | modred rd rc => exact .of_commit rfl h
  | modinv rd ra rc => exact .of_commit rfl h
  | blen ra => exact .of_answer rfl h
  | getbit ra pos => exact .of_answer rfl h
  | getbits ra off cnt =>
    simp only [exec, execGetbits] at h
    split at h
    · exact .of_raise h
    · exact .of_answer rfl h
  | shr rd sh =>
    simp only [exec, execShr] at h
    split at h
    · exact .of_raise h
    · -- all but SR is as after the write of the register alone
      have hw := WritesOnly.of_writeNum (i := .shr rd sh) rfl h
      exact ⟨nofun, hw.regs, hw.buf⟩
  | inc rd => exact .of_commit rfl h
  | neg rd => exact .of_writeNum rfl h
  | split rd rb ra pos =>
    simp only [exec, execSplit] at h
    split at h
    · exact .of_raise h
    · split at h
      · exact .of_raise h
      · obtain rfl := Host.Outcome.next.inj h
        exact .of_regFrame rfl (regFrame_writeNum_writeNum s rd rb _ _)

end Machine

end Sys2Proof

open Sys2Proof Sys2Proof.Machine

/-- Settles O48: the nine commands are those with `writesSr`. -/
theorem onlyNineCommandsWriteSr : Obligations.OnlyNineCommandsWriteSr := by
  intro i s t h
  have hsr := (writesOnly_of_exec h).sr
  cases i with
  | cmpm | eq | isz | isodd | isneg | blen | getbit | getbits | shr => trivial
  | _ => exact hsr rfl

/-- Settles O49: the list of the statement is `destinations`. -/
theorem onlyDestinationsAreWritten : Obligations.OnlyDestinationsAreWritten := by
  intro i s t h
  have hregs := (writesOnly_of_exec h).regs
  cases i <;> exact hregs

/-- Settles O50: the condition of the statement is `OutsideField`. -/
theorem onlyStoresWriteBuf : Obligations.OnlyStoresWriteBuf := by
  intro i s t h a ha
  refine (writesOnly_of_exec h).buf a ?_
  cases i <;> exact ha
end

section
/-! PROOFS. The limbs above the limb counts (10_state.md R34): what every update, every command and every access reads is the same in
two states alike but for them. -/

namespace Sys2Proof.Machine

section
variable {s s' : State} (h : SameVisible s s')
include h

/-! ## What is read -/

theorem SameVisible.mag (r : Reg) : s'.mag r = s.mag r := congrArg Int.natAbs (h.num r)

theorem SameVisible.readByte (a : Nat) : s'.readByte a = s.readByte a := by
  rw [State.readByte, State.readByte, h.buf, h.bufEpoch]

theorem SameVisible.memRead (addr n : Nat) : s'.memRead addr n = s.memRead addr n := by
  simp only [State.memRead, h.readByte]

theorem SameVisible.bytesValue (addr n : Nat) : s'.bytesValue addr n = s.bytesValue addr n := by
  rw [State.bytesValue, State.bytesValue, h.memRead]

theorem SameVisible.hexValue (addr n : Nat) : s'.hexValue addr n = s.hexValue addr n := by
  rw [State.hexValue, State.hexValue, h.memRead, h.cfg]

/-- A read of the host returns the same (20_memory.md R66). -/
theorem SameVisible.portValue (p : Port) : s'.portValue p = s.portValue p := by
  cases p with
  | cmd => rfl
  | status => simp only [State.portValue, State.status, State.fcode, h.cfg, h.fault, h.lost]
  | fcmd => simp only [State.portValue, h.fcmd]
  | ctrl => rfl
  | sr => exact h.sr
  | ccnt => exact h.ccnt
  | buf a => simp only [State.portValue, h.readByte]

/-! ## Updates -/

theorem SameVisible.count : SameVisible s.count s'.count :=
  { h with ccnt := congrArg (· + 1) h.ccnt }

theorem SameVisible.setSr (v : Word64) : SameVisible (s.setSr v) (s'.setSr v) :=
  { h with sr := rfl }

theorem SameVisible.enterFault (f : FaultCode) (w : Word32) : SameVisible (s.enterFault f w) (s'.enterFault f w) :=
  { h with fault := rfl, fcmd := rfl }

theorem SameVisible.discard : SameVisible s.discard s'.discard :=
  { h with lost := rfl }

theorem SameVisible.setInbox (l : List HostAccess) : SameVisible (s.setInbox l) (s'.setInbox l) :=
  { h with inbox := rfl }

theorem SameVisible.reply (r : HostReply) : SameVisible (s.reply r) (s'.reply r) :=
  { h with replies := congrArg (· ++ [r]) h.replies }

theorem SameVisible.writeByte (a : Nat) (b : Byte) : SameVisible (s.writeByte a b) (s'.writeByte a b) :=
  { h with buf := congrArg (·.write a b) h.buf }

theorem SameVisible.writeNum (r : Reg) (v : Int) : SameVisible (s.writeNum r v) (s'.writeNum r v) :=
  { h with
    num := fun q => by simp only [State.num_writeNum, h.num]
    draws := congrArg (· + 1) h.draws }

theorem SameVisible.zeroize (r : Reg) : SameVisible (s.zeroize r) (s'.zeroize r) :=
  { h with num := fun q => by simp only [State.num_zeroize, h.num] }

theorem SameVisible.hwReset : SameVisible s.hwReset s'.hwReset where
  cfg := h.cfg
  num r := by simp only [State.num_hwReset]
  sr := rfl
  fault := rfl
  lost := rfl
  fcmd := rfl
  ccnt := rfl
  buf := rfl
  bufEpoch := congrArg (· + 1) h.bufEpoch
  draws := h.draws
  inbox := h.inbox
  replies := h.replies

end

theorem SameVisible.memWrite {s s' : State} (h : SameVisible s s') (addr : Nat) (bs : List Byte) :
    SameVisible (s.memWrite addr bs) (s'.memWrite addr bs) := by
  induction bs generalizing s s' addr with
  | nil => exact h
  | cons b bs ih => exact ih (h.writeByte addr b) (addr + 1)

/-! ## Answers -/

/-- Two answers alike: both refuse for one reason, or both are next states alike but for those limbs. -/
inductive SameAnswer : Result → Result → Prop
  | next {t t' : State} (h : SameVisible t t') : SameAnswer (.next t) (.next t')
  | refused (r : Refusal) : SameAnswer (.refused r) (.refused r)

section
variable {s s' : State} (h : SameVisible s s')
include h

theorem SameVisible.complete : SameAnswer s.complete s'.complete := .next h.count

theorem SameVisible.raise (f : FaultCode) (w : Word32) : SameAnswer (s.raise f w) (s'.raise f w) := .next (h.enterFault f w)

theorem SameVisible.answer (v : Word64) : SameAnswer (s.answer v) (s'.answer v) := (h.setSr v).complete

theorem SameVisible.commit (w : Word32) (r : Reg) (e : Except FaultCode Int) : SameAnswer (s.commit w r e) (s'.commit w r e) := by
  cases e with
  | ok v => exact (h.writeNum r v).complete
  | error f => exact h.raise f w

/-- A command answers alike: its operands are the values of registers, bytes of BUF, the parameters and the draw of MODINV. -/
theorem SameVisible.exec (i : Instr) : SameAnswer (exec i s) (exec i s') := by
  cases i with
  | zero rd => exact (h.zeroize rd).complete
  | mov rd ra =>
    simp only [Machine.exec, execMov, h.num]
    exact (h.writeNum rd _).complete
  | ldb rd addr len =>
    simp only [Machine.exec, execLdb, h.bytesValue]
    split
    · exact h.raise _ _
    · exact (h.writeNum rd _).complete
  | stb ra addr len =>
    simp only [Machine.exec, execStb, h.mag]
    split
    · exact h.raise _ _
    · split
      · exact h.raise _ _
      · exact (h.memWrite addr _).complete
  | ldw rd addr =>
    simp only [Machine.exec, execLdw, h.cfg, h.bytesValue]
    split
    · exact h.raise _ _
    · exact (h.writeNum rd _).complete
  | ldh rd addr len =>
    simp only [Machine.exec, execLdh, h.hexValue]
    split
    · exact h.raise _ _
    · exact (h.writeNum rd _).complete
  | sth ra addr len =>
    simp only [Machine.exec, execSth, h.mag]
    split
    · exact h.raise _ _
    · split
      · exact h.raise _ _
      · exact (h.memWrite addr _).complete
  | cmpm ra rb => simp only [Machine.exec, execCmpm, h.cfg, h.mag]; exact h.answer _
  | eq ra rb => simp only [Machine.exec, execEq, h.cfg, h.num]; exact h.answer _
  | isz ra => simp only [Machine.exec, execIsz, h.cfg, h.num]; exact h.answer _
  | isodd ra => simp only [Machine.exec, execIsodd, h.cfg, h.mag]; exact h.answer _
  | isneg ra => simp only [Machine.exec, execIsneg, h.cfg, h.num]; exact h.answer _
  | add rd ra rb => simp only [Machine.exec, execAdd, h.cfg, h.num]; exact h.commit _ _ _
  | sub rd ra rb => simp only [Machine.exec, execSub, h.cfg, h.num]; exact h.commit _ _ _
  | mul rd ra rb => simp only [Machine.exec, execMul, h.cfg, h.num]; exact h.commit _ _ _
  | div rd ra rb => simp only [Machine.exec, execDiv, h.cfg, h.num]; exact h.commit _ _ _
  | modmul rd ra rb rc => simp only [Machine.exec, execModmul, h.cfg, h.num]; exact h.commit _ _ _
  | modred rd rc => simp only [Machine.exec, execModred, h.cfg, h.num]; exact h.commit _ _ _
  | modinv rd ra rc => simp only [Machine.exec, execModinv, h.cfg, h.num, h.draws]; exact h.commit _ _ _
  | blen ra => simp only [Machine.exec, execBlen, h.cfg, h.mag]; exact h.answer _
  | getbit ra pos => simp only [Machine.exec, execGetbit, h.cfg, h.num]; exact h.answer _
  | getbits ra off cnt =>
    simp only [Machine.exec, execGetbits, h.cfg, h.mag]
    split
    · exact h.raise _ _
    · exact h.answer _
  | shr rd sh =>
    simp only [Machine.exec, execShr, h.cfg, h.mag, h.num]
    split
    · exact h.raise _ _
    · exact ((h.setSr _).writeNum rd _).complete
  | inc rd => simp only [Machine.exec, execInc, h.cfg, h.num]; exact h.commit _ _ _
  | neg rd => simp only [Machine.exec, execNeg, h.num]; exact (h.writeNum rd _).complete
  | split rd rb ra pos =>
    simp only [Machine.exec, execSplit, h.num]
    split
    · exact h.raise _ _
    · split
      · exact h.raise _ _
      · exact ((h.writeNum rd _).writeNum rb _).complete

theorem SameVisible.issue (w : Word32) : SameAnswer (s.issue w) (s'.issue w) := by
  simp only [State.issue, h.fault]
  split
  · exact .next h.discard
  · split
    · exact h.exec _
    · exact h.raise _ _

theorem SameVisible.portWrite (d : Word64) (p : Port) : SameAnswer (s.portWrite d p) (s'.portWrite d p) := by
  cases p with
  | cmd => exact h.issue _
  | ctrl =>
    simp only [State.portWrite]
    split
    · exact .next h.hwReset
    · exact .next h
  | buf a => exact .next (h.writeByte a _)
  | _ => exact .next h

theorem SameVisible.hostAccess (a : HostAccess) : SameAnswer (s.hostAccess a) (s'.hostAccess a) := by
  cases a with
  | read addr width =>
    simp only [State.hostAccess, h.cfg, h.portValue]
    split
    · exact .next (h.reply _)
    · exact .refused _
  | write addr width d =>
    simp only [State.hostAccess, h.cfg]
    split
    · exact h.portWrite d _
    · exact .refused _

/-- A step answers alike. -/
theorem SameVisible.step : SameAnswer (step s) (step s') := by
  cases hi : s.inbox with
  | nil =>
    rw [step_nil s hi, step_nil s' (h.inbox.trans hi)]
    exact .next h
  | cons a rest =>
    rw [step_cons s hi, step_cons s' (h.inbox.trans hi)]
    exact (h.setInbox rest).hostAccess a

end

end Sys2Proof.Machine

open Sys2Proof Sys2Proof.Machine

/-- Settles O56: no command and no access of the host reads those limbs. -/
theorem hiddenLimbsAreNotObservable : Obligations.HiddenLimbsAreNotObservable := by
  intro s s' h
  have ha := h.step
  generalize step s = r, step s' = r' at ha
  cases ha with
  | next ht => exact .inl ⟨_, _, rfl, rfl, ht⟩
  | refused r => exact .inr ⟨r, rfl, rfl⟩
end

section
/-! PROOFS. The encoder as the inverse of the decoder (30_encoding.md R100): what decodes is well formed, and a word is determined by
the instruction it decodes to, since the opcode, the operand fields and the unused fields cover it. -/

namespace Sys2Proof

theorem bits_lt (w : Word32) (hi lo : Nat) : bits w hi lo < 2 ^ (hi + 1 - lo) := Nat.mod_lt _ (Nat.two_pow_pos _)

/-- The operands of an instruction, each after the field that holds it, by its highest and lowest bit (30_encoding.md R92-R95,
R99). -/
def operandFields : Instr → List ((Nat × Nat) × Nat)
  | .zero rd => [((25, 22), rd)]
  | .mov rd ra => [((25, 22), rd), ((21, 18), ra)]
  | .ldb rd addr len => [((25, 22), rd), ((17, 10), addr), ((9, 2), len)]
  | .stb ra addr len => [((21, 18), ra), ((17, 10), addr), ((9, 2), len)]
  | .ldw rd addr => [((25, 22), rd), ((17, 10), addr)]
  | .ldh rd addr len => [((25, 22), rd), ((17, 10), addr), ((9, 2), len)]
  | .sth ra addr len => [((21, 18), ra), ((17, 10), addr), ((9, 2), len)]
  | .cmpm ra rb => [((21, 18), ra), ((17, 14), rb)]
  | .eq ra rb => [((21, 18), ra), ((17, 14), rb)]
  | .isz ra => [((21, 18), ra)]
  | .isodd ra => [((21, 18), ra)]
  | .isneg ra => [((21, 18), ra)]
  | .add rd ra rb => [((25, 22), rd), ((21, 18), ra), ((17, 14), rb)]
  | .sub rd ra rb => [((25, 22), rd), ((21, 18), ra), ((17, 14), rb)]
  | .mul rd ra rb => [((25, 22), rd), ((21, 18), ra), ((17, 14), rb)]
  | .div rd ra rb => [((25, 22), rd), ((21, 18), ra), ((17, 14), rb)]
  | .modmul rd ra rb rc => [((25, 22), rd), ((21, 18), ra), ((17, 14), rb), ((13, 10), rc)]
  | .modred rd rc => [((25, 22), rd), ((13, 10), rc)]
  | .modinv rd ra rc => [((25, 22), rd), ((21, 18), ra), ((13, 10), rc)]
  | .blen ra => [((21, 18), ra)]
  | .getbit ra pos => [((21, 18), ra), ((13, 0), pos)]
  | .getbits ra off cnt => [((21, 18), ra), ((10, 0), off), ((17, 11), cnt)]
  | .shr rd sh => [((25, 22), rd), ((13, 0), sh)]
  | .inc rd => [((25, 22), rd)]
  | .neg rd => [((25, 22), rd)]
  | .split rd rb ra pos => [((25, 22), rd), ((21, 18), ra), ((17, 14), rb), ((13, 0), pos)]

/-- Each operand of what decodes is read from its field. -/
theorem bits_operandFields_of_decode {w : Word32} {i : Instr} (h : decode w = .ok i) :
    ∀ f ∈ operandFields i, bits w f.1.1 f.1.2 = f.2 := by
  simp only [decode, decodeFields] at h
  split at h
  on_goal 27 => cases h
  all_goals
    obtain ⟨-, rfl⟩ := (accept_eq_ok_iff _ _ _).mp h
    simp [operandFields, bits, regField]

/-- The opcode, the operand fields and the unused fields of an instruction cover a word (30_encoding.md R98). -/
theorem fieldsMask_eq_allOnes (i : Instr) :
    fieldsMask ((31, 26) :: (unusedFields i ++ (operandFields i).map (·.1))) = BitVec.allOnes 32 := by
  cases i <;> simp only [unusedFields, operandFields, List.map_cons, List.map_nil] <;> decide

/-- Two words that decode to one instruction are one word. -/
theorem decode_injective {w v : Word32} {i : Instr} (hw : decode w = .ok i) (hv : decode v = .ok i) : w = v := by
  obtain ⟨hopw, hunusedw⟩ := (matches_row_iff w i).mp (matches_row_of_decode hw)
  obtain ⟨hopv, hunusedv⟩ := (matches_row_iff v i).mp (matches_row_of_decode hv)
  have hfields : ∀ f ∈ (31, 26) :: (unusedFields i ++ (operandFields i).map (·.1)), bits w f.1 f.2 = bits v f.1 f.2 := by
    refine List.forall_mem_cons.mpr ⟨hopw.trans hopv.symm, List.forall_mem_append.mpr ⟨fun f hf => ?_, ?_⟩⟩
    · rw [hunusedw f hf, hunusedv f hf]
    · refine List.forall_mem_map.mpr fun f hf => ?_
      rw [bits_operandFields_of_decode hw f hf, bits_operandFields_of_decode hv f hf]
  have hmask := (and_fieldsMask_eq_iff w v _).mpr hfields
  rwa [fieldsMask_eq_allOnes, BitVec.and_allOnes, BitVec.and_allOnes] at hmask

/-- An instruction is well formed exactly when every operand is below `2^n` for its field of `n` bits (30_encoding.md R96, R97). -/
theorem wellFormed_iff (i : Instr) : i.WellFormed = true ↔ ∀ f ∈ operandFields i, f.2 < 2 ^ (f.1.1 + 1 - f.1.2) := by
  cases i <;> simp [Instr.WellFormed, operandFields]

/-- What decodes is well formed: an operand is read from a field of its width. -/
theorem wellFormed_of_decode {w : Word32} {i : Instr} (h : decode w = .ok i) : i.WellFormed = true :=
  (wellFormed_iff i).mpr fun f hf => bits_operandFields_of_decode h f hf ▸ bits_lt w _ _

end Sys2Proof

open Sys2Proof

/-- Settles O57: each format's fields are read back. -/
theorem decodeOfEncode : Obligations.DecodeOfEncode := fun _ => decode_encode

/-- Settles O58: the word of a decoded, hence well-formed, instruction decodes to it as well, so it is the word itself. -/
theorem encodeOfDecode : Obligations.EncodeOfDecode := by
  intro w i h
  have hwf := wellFormed_of_decode h
  exact ⟨hwf, decode_injective (decode_encode hwf) h⟩
end

section
/-! PROOFS. The host window of 20_memory.md section 4 and the reset: which accesses are refused, what reads and writes of each
register do, what a reset and power-on leave, and the fields of STATUS. -/

namespace Sys2Proof.Machine

/-! ## Refused accesses (20_memory.md R67) -/

/-- Outside its listed offsets the window has no register. -/
theorem portAt_eq_none {o : Nat} (h : o ∉ [0x000, 0x004, 0x008, 0x00C, 0x010, 0x018]) (hbuf : ¬(0x100 ≤ o ∧ o ≤ 0x1FF)) :
    portAt o = none := by
  simp only [List.mem_cons, List.not_mem_nil, or_false, not_or] at h
  obtain ⟨hcmd, hstatus, hfcmd, hctrl, hsr, hccnt⟩ := h
  rw [portAt, if_neg hcmd, if_neg hstatus, if_neg hfcmd, if_neg hctrl, if_neg hsr, if_neg hccnt, if_neg hbuf]

/-- The step at an access whose address or width the window refuses. -/
theorem step_of_portFor_eq_error {s : State} {a : HostAccess} {addr width : Nat} {rest : List HostAccess} {r : Refusal}
    (hin : s.inbox = a :: rest) (ha : a = .read addr width ∨ ∃ d, a = .write addr width d)
    (h : portFor s.cfg addr width = .error r) : step s = .refused r := by
  rw [step_cons s hin]
  obtain rfl | ⟨d, rfl⟩ := ha
  all_goals simp only [State.hostAccess, State.setInbox_cfg, h]

theorem portFor_of_portOf_eq_none {c : Config} {addr : Nat} (width : Nat) (h : portOf c addr = none) :
    portFor c addr width = .error (.hostOffset addr) := by
  simp only [portFor, h]

theorem portFor_of_width_ne {c : Config} {addr width : Nat} {p : Port} (h : portOf c addr = some p)
    (hw : width ≠ portWidth c p) : portFor c addr width = .error (.hostWidth addr width) := by
  simp only [portFor, h, if_neg hw]

/-! ## Reset -/

/-- A cleared register has every limb 0 (10_state.md R36). -/
theorem limb_of_cleared {s : State} {r : Reg} (h : s.regs[r] = NumReg.cleared) (k : Nat) : s.limb r k = 0 := by
  have hmag : s.mag r = 0 := by rw [State.mag, State.num, h]; rfl
  rw [State.limb, h, hmag]
  split
  · simp [limbOf]
  · rfl

/-! ## STATUS (10_state.md R42) -/

theorem FaultCode.code_lt (f : FaultCode) : f.code < 2 ^ 8 := by cases f <;> decide

theorem fcode_lt (s : State) : s.fcode < 2 ^ 8 := by
  rw [State.fcode]
  split
  · decide
  · exact FaultCode.code_lt _

/-- The word of STATUS as the sum of its fields, each of which fits its place. -/
theorem status_toNat (s : State) :
    s.status.toNat = s.cfg.width * 2 ^ 16 + s.fcode * 2 ^ 8 + s.lost.toNat * 2 + s.fault.isSome.toNat := by
  have hwidth := width_cases s.cfg
  have hcode := fcode_lt s
  have hlost := Bool.toNat_le s.lost
  have hfault := Bool.toNat_le s.fault.isSome
  exact (BitVec.toNat_ofNat _ _).trans (Nat.mod_eq_of_lt (by omega))

/-- STATUS while no fault is recorded and no command was lost. -/
theorem status_toNat_of_clear {s : State} (hf : s.fault = none) (hl : s.lost = false) :
    s.status.toNat = s.cfg.width * 2 ^ 16 := by
  simp [status_toNat, State.fcode, hf, hl]

/-! ## Commands -/

/-- While FAULT is 0 a legal word that arrives is performed (10_state.md R45). -/
theorem issue_of_decode {s : State} {w : Word32} {i : Instr} (hf : s.fault = none) (hd : decode w = .ok i) :
    s.issue w = exec i s := by
  rw [State.issue, if_neg (by simp [hf]), hd]

end Sys2Proof.Machine

open Sys2Proof Sys2Proof.Machine

/-- Settles O45: no register is found for the access, or its width is another. -/
theorem otherAccessesAreRefused : Obligations.OtherAccessesAreRefused := by
  intro s a addr width rest hin ha
  refine ⟨fun h => ?_, fun hbase h => ?_⟩
  · refine step_of_portFor_eq_error hin ha (portFor_of_portOf_eq_none width ?_)
    rw [portOf]
    split
    · rfl
    · obtain hlt | ⟨hoff, hbuf⟩ := h
      · contradiction
      · exact portAt_eq_none hoff hbuf
  · obtain ⟨o, rfl⟩ := Nat.exists_eq_add_of_le hbase
    simp only [Nat.add_sub_cancel_left, List.mem_cons, List.not_mem_nil, or_false] at h
    suffices ∃ p, portAt o = some p ∧ width ≠ portWidth s.cfg p by
      obtain ⟨p, hp, hw⟩ := this
      exact step_of_portFor_eq_error hin ha (portFor_of_width_ne ((portOf_add s.cfg o).trans hp) hw)
    obtain ⟨rfl | rfl | rfl | rfl, hw⟩ | ⟨rfl, hw⟩ | ⟨rfl, hw⟩ | ⟨hlo, hhi, hw⟩ := h
    · exact ⟨.cmd, rfl, hw⟩
    · exact ⟨.status, rfl, hw⟩
    · exact ⟨.fcmd, rfl, hw⟩
    · exact ⟨.ctrl, rfl, hw⟩
    · exact ⟨.sr, rfl, hw⟩
    · exact ⟨.ccnt, rfl, hw⟩
    · exact ⟨_, portAt_buf hlo hhi, hw⟩

/-- Settles O36: FAULT is 0, so the word is not discarded. -/
theorem stepRunsTheDecodedCommand : Obligations.StepRunsTheDecodedCommand := by
  intro s w i rest hf hin hd
  exact (step_cmd s w hin).trans (issue_of_decode (s := s.setInbox rest) hf hd)

/-- Settles O40: the state after the reset is that of power-on with new draws in BUF. -/
theorem ctrlResetsTheCore : Obligations.CtrlResetsTheCore := by
  intro s rest
  have hp : portOf s.cfg (s.cfg.hostBase + 0x00C) = some .ctrl := portOf_add s.cfg 0x00C
  refine ⟨fun d hin hd => ?_, fun d hin hd => ?_, fun hin => step_read_port hp hin⟩
  · exact (step_write_port hp hin).trans (if_neg (Bool.eq_false_iff.mp hd))
  · exact ⟨(s.setInbox rest).hwReset, (step_write_port hp hin).trans (if_pos hd), State.num_hwReset _,
      fun r k => limb_of_cleared (regs_replicate_get _ r) k, rfl, rfl, rfl, status_toNat_of_clear rfl rfl, rfl, rfl,
      fun a => rfl, rfl, rfl, rfl⟩

/-- Settles O41: every register is cleared, and no byte of BUF is written. -/
theorem powerOnState : Obligations.PowerOnState := by
  intro c
  have hcleared (r : Reg) : (State.powerOn c).regs[r] = NumReg.cleared := regs_replicate_get _ r
  exact ⟨fun r => congrArg NumReg.val (hcleared r), fun r k => limb_of_cleared (hcleared r) k, rfl,
    status_toNat_of_clear rfl rfl, rfl, rfl, fun a => rfl⟩

/-- Settles O42: the fields of STATUS are digits of its sum. -/
theorem statusFields : Obligations.StatusFields := by
  intro s
  have hsum := status_toNat s
  have hwidth := width_cases s.cfg
  have hcode := fcode_lt s
  have hlost := Bool.toNat_le s.lost
  have hfault := Bool.toNat_le s.fault.isSome
  have hfcode : s.status.toNat / 2 ^ 8 % 2 ^ 8 = s.fcode := by omega
  have hlostBit : s.status.toNat / 2 % 2 = s.lost.toNat := by omega
  have hfaultBit : s.status.toNat % 2 = s.fault.isSome.toNat := by omega
  refine ⟨by omega, by omega, ?_, by omega, ?_, ?_⟩
  · rw [hfcode, State.fcode]
    cases s.fault with
    | none => rfl
    | some f => cases f <;> rfl
  · rw [hlostBit]
    cases s.lost <;> rfl
  · rw [hfaultBit]
    cases s.fault <;> rfl

/-- Settles O43: each register at its width replies its content. -/
theorem hostReadsTheWindow : Obligations.HostReadsTheWindow := by
  intro s offset width rest data hin h
  obtain ⟨rfl, rfl, rfl⟩ | ⟨rfl, rfl, rfl⟩ | ⟨rfl, rfl, rfl⟩ | ⟨rfl, rfl, rfl⟩ | ⟨rfl, rfl, rfl⟩ | ⟨rfl, rfl, rfl⟩ |
    ⟨hlo, hhi, rfl, rfl⟩ := h
  · exact step_read_port (p := .cmd) (portOf_add _ _) hin
  · exact step_read_port (p := .status) (portOf_add _ _) hin
  · exact step_read_port (p := .fcmd) (portOf_add _ _) hin
  · exact step_read_port (p := .ctrl) (portOf_add _ _) hin
  · exact step_read_port (p := .sr) (portOf_add _ _) hin
  · exact step_read_port (p := .ccnt) (portOf_add _ _) hin
  · exact step_read_port (p := .buf (offset - 0x100)) ((portOf_add _ _).trans (portAt_buf hlo hhi)) hin

/-- Settles O44: the write of a read-only register is no update, and that of a byte of BUF is `writeByte`. -/
theorem hostWritesTheWindow : Obligations.HostWritesTheWindow := by
  intro s offset width d rest hin
  refine ⟨fun h => ?_, fun hlo hhi hw => ?_⟩
  · obtain ⟨rfl, rfl⟩ | ⟨rfl, rfl⟩ | ⟨rfl, rfl⟩ | ⟨rfl, rfl⟩ := h
    · exact step_write_port (p := .status) (portOf_add _ _) hin
    · exact step_write_port (p := .fcmd) (portOf_add _ _) hin
    · exact step_write_port (p := .sr) (portOf_add _ _) hin
    · exact step_write_port (p := .ccnt) (portOf_add _ _) hin
  · subst hw
    refine ⟨(s.setInbox rest).writeByte (offset - 0x100) (d.setWidth 8),
      step_write_port ((portOf_add _ _).trans (portAt_buf hlo hhi)) hin, ?_, fun a ha => ?_, rfl⟩
    · rw [State.readByte_writeByte, if_pos rfl]
    · rw [State.readByte_writeByte, if_neg ha]
      rfl
end

section
/-! PROOFS. Law L-DIV of 95_test_vectors.md, from what MUL and DIV write. -/

open Sys2Proof Sys2Proof.Machine

/-- Settles O24: the product leaves `b` as it was, and `b` divides it exactly. -/
theorem divUndoesMul : Obligations.DivUndoesMul := by
  intro rd re ra rb s hne hb hfit
  obtain ⟨-, -, hmul⟩ := mulWritesTheProduct rd ra rb s
  obtain ⟨t, ht, hprod, htframe⟩ := hmul (hfit.imp_right .inr)
  have htb : t.num rb = s.num rb := htframe.regs rb (by simpa using hne.symm)
  obtain ⟨-, -, hdiv⟩ := divWritesTheTruncatedQuotient re rd rb t
  obtain ⟨u, hu, hquot, huframe⟩ := hdiv (htb ▸ hb)
  refine ⟨t, u, ht, hu, ?_, huframe.control.fault.trans htframe.control.fault⟩
  rw [hquot, hprod, htb, Int.mul_tdiv_cancel _ hb]
end
